-- ==== Sys2Proof/Word.lean ====
section
/-! DEFINITION. The words of the machine: 32-bit registers and addresses (00_scope.md R6), bytes, and
the field widths of the three instruction formats (30_encoding.md R81 to R83). -/

namespace Sys2Proof

/-- A 32-bit word: a register, an address, an instruction (R6: XLEN = 32, ILEN = 32). -/
abbrev Word := BitVec 32

/-- A byte of memory, the unit of addressing (R30). -/
abbrev Byte := BitVec 8

/-- A register number: the 5-bit `rs`, `rt` or `rd` field (R20, R81). -/
abbrev Reg := BitVec 5

/-- The 5-bit shift amount field (R81). -/
abbrev Shamt := BitVec 5

/-- The 16-bit immediate field (R82). -/
abbrev Imm := BitVec 16

/-- The 26-bit address field of a jump (R83). -/
abbrev JumpField := BitVec 26

/-- Register 31, `$ra`, the link register of JAL and JALR (R6, R23). -/
abbrev ra : Reg := 31#5

end Sys2Proof
end

