-- ==== Sys2Proof/Config.lean ====
section
/-! DEFINITION. The parameters the spec leaves open or decides (00_scope.md R7; 10_state.md R31): one
configuration record, which State carries as plain data and no step changes, and the free values, which are
constants with no body.

Every parameter of R7's table is a field of `Config`; OTHER_MASTERS is the region kind `shared` of MEM_MAP.
Where the spec gives a parameter one value and no alternative, its type has that one value (log 5). -/

namespace Sys2Proof

/-- PC_BASE (R151, D1): what "PC" denotes in the Operation lines of branches and jumps. -/
inductive PcBase where
  /-- the address of the instruction being executed: the spec's decision -/
  | ownAddress
  /-- the address of its delay slot: the alternative reading recorded in D1 -/
  | delaySlot
  deriving DecidableEq, Repr

/-- BYTE_ORDER (R52, D4). -/
inductive ByteOrder where
  /-- the lowest address holds bits 7:0: the spec's decision -/
  | little
  /-- the lowest address holds the top byte: the alternative R52 states -/
  | big
  deriving DecidableEq, Repr

/-- What answers at the addresses of a region of MEM_MAP (R58). -/
inductive RegionKind where
  /-- memory that only the core writes: a read returns the last value written -/
  | ram
  /-- memory that other bus masters write too (OTHER_MASTERS, R60): a read is a free value (log 12) -/
  | shared
  /-- a device, whose behaviour the spec does not give (R58, U4): every access is refused -/
  | device
  deriving DecidableEq, Repr

/-- One region of MEM_MAP (R58): the addresses `base` to `base + size - 1`. -/
structure Region where
  base : Nat
  size : Nat
  kind : RegionKind
  deriving DecidableEq, Repr

/-- OVERFLOW_POLICY (R120, D10): ADD, ADDI and SUB on signed overflow. -/
inductive OverflowPolicy where
  /-- the result modulo 2^32: the spec's decision -/
  | wrap
  /-- the defined execution ends: the alternative R120 states -/
  | refuse
  deriving DecidableEq, Repr

/-- DIV_OVERFLOW_RESULT (R180, D13): HI and LO after `0x80000000 / 0xFFFFFFFF`. -/
inductive DivOverflow where
  /-- LO = 0x80000000, HI = 0: the spec's decision -/
  | fixed
  /-- a draw, like division by zero: the cautious alternative R180 states -/
  | draw
  deriving DecidableEq, Repr

/-- CP0_MODEL (R223, D17): how MFC0 and MTC0 are treated. -/
inductive Cp0Model where
  /-- `opaque`: both end the defined execution, the default of the spec -/
  | opaqueCp0
  /-- both are executed against supplied semantics, here the free functions `cp0Value`,
  `cp0AfterRead` and `cp0AfterWrite` (log 22) -/
  | supplied
  deriving DecidableEq, Repr

/-- MISALIGNED_POLICY (R54, R55, D5, D6): what a misaligned access or fetch does. -/
inductive MisalignedPolicy where
  /-- the defined execution ends, nothing read or written: the spec's one value -/
  | refuse
  deriving DecidableEq, Repr

/-- IFETCH_COHERENCE (R63, D9): whether a store is seen by a later fetch. -/
inductive IfetchCoherence where
  /-- the program text is fixed for a run and a store into it ends the defined execution: the spec's one
  value -/
  | immutableText
  deriving DecidableEq, Repr

/-- DIV_ROUNDING (R189, D11): signed quotient and remainder. -/
inductive DivRounding where
  /-- quotient toward zero, remainder with the sign of the dividend: the spec's one value -/
  | towardZero
  deriving DecidableEq, Repr

/-- DIV0_RESULT (R190, D12): HI and LO after a division by zero. -/
inductive Div0Result where
  /-- a draw at each execution; the number names which sequence of draws, of which nothing is known
  (log 16) -/
  | draw (sequence : Nat)
  deriving DecidableEq, Repr

/-- UNLISTED_ENCODING_POLICY (R97, D14): what a word that is no row of R95 does. -/
inductive UnlistedPolicy where
  /-- the defined execution ends: the spec's one value -/
  | refuse
  deriving DecidableEq, Repr

/-- INTERRUPTS (R252, D19): whether anything asynchronous can redirect the core. -/
inductive Interrupts where
  /-- none is taken: the launch premise of every claim of the spec -/
  | none
  /-- some may be taken, for which the spec gives no behaviour: every step is refused (log 23) -/
  | possible
  deriving DecidableEq, Repr

/-- The configuration record of R7. The default values are the spec's where it gives one; `memMap`,
`resetPc` and `programText` have none in the spec and take the model's (log 3, log 2, log 13). -/
structure Config where
  pcBase           : PcBase := .ownAddress
  /-- LINK_OFFSET (R152, C11): return address minus address of the JAL or JALR -/
  linkOffset       : Word := 8
  byteOrder        : ByteOrder := .little
  misaligned       : MisalignedPolicy := .refuse
  memMap           : List Region := [⟨0, 4294967296, .ram⟩]
  ifetchCoherence  : IfetchCoherence := .immutableText
  /-- the program text: the addresses of the bytes the loader filled as instructions, strictly rising; a
  fixed parameter of a run (R31, R63, D9; log 13) -/
  programText      : List Nat := []
  overflow         : OverflowPolicy := .wrap
  divRounding      : DivRounding := .towardZero
  div0Result       : Div0Result := .draw 0
  divOverflow      : DivOverflow := .fixed
  unlistedEncoding : UnlistedPolicy := .refuse
  cp0Model         : Cp0Model := .opaqueCp0
  /-- under CP0_MODEL = supplied, how many instructions after MFC0 may not use `x[rt]` yet: part of the
  hazards that the supplier supplies (R286, D17; log 32) -/
  mfc0Delay        : Nat := 0
  interrupts       : Interrupts := .none
  resetPc          : Word := 0
  /-- LOAD_DELAY (R284, D22): the spec gives meaning to 0 only -/
  loadDelay        : Nat := 0
  /-- HILO_DELAY (R285, D22): the spec gives meaning to 0 only -/
  hiloDelay        : Nat := 0
  /-- END_PC of END_OF_RUN (R290, D23): a convention of the harness, read by Safety.lean only -/
  endPc            : Option Word := none
  deriving DecidableEq, Repr

/-- The configuration at `State.reset`. -/
def Config.standard : Config := {}

/-- The delays for which the spec defines a machine (R284, R285): any other configuration is refused
at every step (log 24). -/
def Config.delaysDefined (c : Config) : Bool := c.loadDelay == 0 && c.hiloDelay == 0

/-! ### Free values

Constants with no body: a statement that mentions one holds whatever it is. One argument of each is State's
counter of draws, so that each draw may differ from every other. -/

/-- The value drawn into HI by a division by zero (R190, DIV0_RESULT; log 16). -/
opaque drawnHi : Div0Result → Nat → Word

/-- The value drawn into LO by a division by zero (R190, DIV0_RESULT; log 16). -/
opaque drawnLo : Div0Result → Nat → Word

/-- What a byte shared with other masters reads as, at this draw and this address (R60, U19; log 12). -/
opaque sharedByte : Nat → Nat → Byte

/-- CP0_MODEL = supplied: what MFC0 of this register reads, given the draw and the registers (R220,
R223; log 22). No two accesses have the same draw, so the value read at each is free: it may be what stood
there before an earlier MTC0 took effect, however long that takes (R286; log 32). -/
opaque cp0Value : Nat → Reg → Vector Word 32 → Word

/-- CP0_MODEL = supplied: the coprocessor 0 registers after MFC0 has read one (R223: "whether the read
itself has an effect is not in the source", R220; log 22). -/
opaque cp0AfterRead : Nat → Reg → Vector Word 32 → Vector Word 32

/-- CP0_MODEL = supplied: the coprocessor 0 registers after MTC0 has written this value to this
register (R221, R223; log 22). -/
opaque cp0AfterWrite : Nat → Reg → Word → Vector Word 32 → Vector Word 32

end Sys2Proof
end

