-- ==== Sys2Proof/Syntax.lean ====
section
/-! DEFINITION. The instructions: one constructor for each row of spec/opcode_table.json.

The arguments are the row's operand fields, in the order of the assembler syntax (30_encoding.md R101;
for loads and stores: data register, base register, displacement). A don't-care field is no operand
(R96: "any value decodes to the same instruction and has no effect"). -/

namespace Sys2Proof

inductive Instr where
  -- Arithmetic and comparison (40_arithmetic.md R110 to R119)
  | add (rd rs rt : Reg)
  | addu (rd rs rt : Reg)
  | addi (rt rs : Reg) (imm : Imm)
  | addiu (rt rs : Reg) (imm : Imm)
  | slt (rd rs rt : Reg)
  | sltu (rd rs rt : Reg)
  | slti (rt rs : Reg) (imm : Imm)
  | sltiu (rt rs : Reg) (imm : Imm)
  | sub (rd rs rt : Reg)
  | subu (rd rs rt : Reg)
  -- Bitwise logical and LUI (41_logical.md R130 to R137)
  | and (rd rs rt : Reg)
  | andi (rt rs : Reg) (imm : Imm)
  | lui (rt : Reg) (imm : Imm)
  | nor (rd rs rt : Reg)
  | or (rd rs rt : Reg)
  | ori (rt rs : Reg) (imm : Imm)
  | xor (rd rs rt : Reg)
  | xori (rt rs : Reg) (imm : Imm)
  -- Control transfer (42_control_transfer.md R153 to R162)
  | beq (rs rt : Reg) (imm : Imm)
  | bne (rs rt : Reg) (imm : Imm)
  | bgez (rs : Reg) (imm : Imm)
  | bgtz (rs : Reg) (imm : Imm)
  | blez (rs : Reg) (imm : Imm)
  | bltz (rs : Reg) (imm : Imm)
  | j (addr : JumpField)
  | jal (addr : JumpField)
  | jr (rs : Reg)
  | jalr (rs : Reg)
  -- Multiply, divide, HI and LO (43_muldiv_hilo.md R180 to R188)
  | div (rs rt : Reg)
  | divu (rs rt : Reg)
  | mfhi (rd : Reg)
  | mthi (rs : Reg)
  | mflo (rd : Reg)
  | mtlo (rs : Reg)
  | mult (rs rt : Reg)
  | multu (rs rt : Reg)
  | mul (rd rs rt : Reg)
  -- Loads and stores (44_load_store.md R201 to R208)
  | lb (rt rs : Reg) (imm : Imm)
  | lbu (rt rs : Reg) (imm : Imm)
  | lh (rt rs : Reg) (imm : Imm)
  | lhu (rt rs : Reg) (imm : Imm)
  | lw (rt rs : Reg) (imm : Imm)
  | sb (rt rs : Reg) (imm : Imm)
  | sh (rt rs : Reg) (imm : Imm)
  | sw (rt rs : Reg) (imm : Imm)
  -- Coprocessor 0 moves (45_coprocessor0.md R220, R221)
  | mfc0 (rt rd : Reg)
  | mtc0 (rt rd : Reg)
  -- NOP and shifts (46_shift_nop.md R230 to R236)
  | nop
  | sll (rd rt : Reg) (shamt : Shamt)
  | sllv (rd rt rs : Reg)
  | srl (rd rt : Reg) (shamt : Shamt)
  | srlv (rd rt rs : Reg)
  | sra (rd rt : Reg) (shamt : Shamt)
  | srav (rd rt rs : Reg)
  deriving DecidableEq, Repr

end Sys2Proof
end

