-- ==== Sys2Proof/WellFormed.lean ====
section
/-! DEFINITION. Which instructions are well formed.

Field widths are carried by the types (`Reg`, `Shamt`, `Imm`, `JumpField`), so one check is left: an
instruction is well formed when its canonical word (30_encoding.md R103) is a word of its own. The word
of `sll $0, $0, 0` is the all-zero word, which R98, R102 and R230 give to NOP; the instruction is written
`nop`. The decoder still reads `.sll 0 0 0` from a word of the SLL row whose don't-care `rs` field is not
zero, and the machine runs it as SLL (log 19). -/

namespace Sys2Proof

/-- The check: anything but `sll $0, $0, 0`, whose canonical word is NOP's. -/
def Instr.wellFormed : Instr → Bool
  | .sll rd rt shamt => !(rd == 0 && rt == 0 && shamt == 0)
  | _ => true

end Sys2Proof
end

