-- ==== Sys2Proof/Decode.lean ====
section
/-! DEFINITION. From bits to instructions and back: the fields of a word (30_encoding.md R81 to R83), the
decoder (R99), byte order (20_memory.md R52), the encoder (R95, R103) and the pattern table (R95). -/

namespace Sys2Proof

/-! ### Fields of an instruction word (R81, R82, R83) -/

def opcode (w : Word) : BitVec 6 := w.extractLsb' 26 6
def fieldRs (w : Word) : Reg := w.extractLsb' 21 5
def fieldRt (w : Word) : Reg := w.extractLsb' 16 5
def fieldRd (w : Word) : Reg := w.extractLsb' 11 5
def fieldShamt (w : Word) : Shamt := w.extractLsb' 6 5
def funct (w : Word) : BitVec 6 := w.extractLsb' 0 6
def fieldImm (w : Word) : Imm := w.extractLsb' 0 16
def fieldAddr (w : Word) : JumpField := w.extractLsb' 0 26

/-! ### The decoder (R99) -/

/-- Why a word is unlisted (R97), or that there are not four bytes to make a word (R80). -/
inductive Unlisted where
  /-- fewer than four bytes were given (R80: a decoder always takes 4 bytes) -/
  | tooShort
  /-- an opcode shown as a dash in R91 -/
  | noSuchOpcode
  /-- opcode 000000 with a funct shown as a dash in R92 -/
  | noSuchFunct
  /-- opcode 000000, a funct other than SLL, SRL, SRA, and `shamt` not 00000 -/
  | shamtNotZero
  /-- opcode 000001 with `rt` above 1 (R93) -/
  | noSuchBranch
  /-- opcode 010000 with `rs` not 00000 or 00100, or bits 10:0 not zero (R94) -/
  | noSuchCop0Move
  /-- opcode 011100 with anything but `shamt` 00000, `funct` 000010 (R94) -/
  | notMul
  deriving DecidableEq, Repr

/-- Opcode 000000 with `shamt` 00000: the function map R92 without SLL, SRL and SRA. -/
def decodeFunct (w : Word) : Except Unlisted Instr :=
  let rs := fieldRs w
  let rt := fieldRt w
  let rd := fieldRd w
  match funct w with
  | 0x04#6 => .ok (.sllv rd rt rs)
  | 0x06#6 => .ok (.srlv rd rt rs)
  | 0x07#6 => .ok (.srav rd rt rs)
  | 0x08#6 => .ok (.jr rs)
  | 0x09#6 => .ok (.jalr rs)
  | 0x10#6 => .ok (.mfhi rd)
  | 0x11#6 => .ok (.mthi rs)
  | 0x12#6 => .ok (.mflo rd)
  | 0x13#6 => .ok (.mtlo rs)
  | 0x18#6 => .ok (.mult rs rt)
  | 0x19#6 => .ok (.multu rs rt)
  | 0x1A#6 => .ok (.div rs rt)
  | 0x1B#6 => .ok (.divu rs rt)
  | 0x20#6 => .ok (.add rd rs rt)
  | 0x21#6 => .ok (.addu rd rs rt)
  | 0x22#6 => .ok (.sub rd rs rt)
  | 0x23#6 => .ok (.subu rd rs rt)
  | 0x24#6 => .ok (.and rd rs rt)
  | 0x25#6 => .ok (.or rd rs rt)
  | 0x26#6 => .ok (.xor rd rs rt)
  | 0x27#6 => .ok (.nor rd rs rt)
  | 0x2A#6 => .ok (.slt rd rs rt)
  | 0x2B#6 => .ok (.sltu rd rs rt)
  | _ => .error .noSuchFunct

/-- Opcode 000000 (R92, R99 step 2). The all-zero word is NOP (R98, R102). -/
def decodeSpecial (w : Word) : Except Unlisted Instr :=
  match funct w with
  | 0x00#6 => .ok (if w = 0#32 then .nop else .sll (fieldRd w) (fieldRt w) (fieldShamt w))
  | 0x02#6 => .ok (.srl (fieldRd w) (fieldRt w) (fieldShamt w))
  | 0x03#6 => .ok (.sra (fieldRd w) (fieldRt w) (fieldShamt w))
  | _ => if fieldShamt w = 0#5 then decodeFunct w else .error .shamtNotZero

/-- Opcode 000001: BLTZ or BGEZ, told apart by the `rt` field (R93). -/
def decodeBranchZero (w : Word) : Except Unlisted Instr :=
  match fieldRt w with
  | 0#5 => .ok (.bltz (fieldRs w) (fieldImm w))
  | 1#5 => .ok (.bgez (fieldRs w) (fieldImm w))
  | _ => .error .noSuchBranch

/-- Opcode 010000: MFC0 or MTC0, told apart by the `rs` field, with bits 10:0 zero (R94). -/
def decodeCop0 (w : Word) : Except Unlisted Instr :=
  if w.extractLsb' 0 11 = 0#11 then
    match fieldRs w with
    | 0#5 => .ok (.mfc0 (fieldRt w) (fieldRd w))
    | 4#5 => .ok (.mtc0 (fieldRt w) (fieldRd w))
    | _ => .error .noSuchCop0Move
  else .error .noSuchCop0Move

/-- Opcode 011100: MUL only (R94). -/
def decodeMul (w : Word) : Except Unlisted Instr :=
  if w.extractLsb' 0 11 = 2#11 then .ok (.mul (fieldRd w) (fieldRs w) (fieldRt w)) else .error .notMul

/-- The decoder of R99: every word is one listed instruction or unlisted. -/
def decodeWord (w : Word) : Except Unlisted Instr :=
  let rs := fieldRs w
  let rt := fieldRt w
  let imm := fieldImm w
  match opcode w with
  | 0x00#6 => decodeSpecial w
  | 0x01#6 => decodeBranchZero w
  | 0x02#6 => .ok (.j (fieldAddr w))
  | 0x03#6 => .ok (.jal (fieldAddr w))
  | 0x04#6 => .ok (.beq rs rt imm)
  | 0x05#6 => .ok (.bne rs rt imm)
  | 0x06#6 => .ok (.blez rs imm)
  | 0x07#6 => .ok (.bgtz rs imm)
  | 0x08#6 => .ok (.addi rt rs imm)
  | 0x09#6 => .ok (.addiu rt rs imm)
  | 0x0A#6 => .ok (.slti rt rs imm)
  | 0x0B#6 => .ok (.sltiu rt rs imm)
  | 0x0C#6 => .ok (.andi rt rs imm)
  | 0x0D#6 => .ok (.ori rt rs imm)
  | 0x0E#6 => .ok (.xori rt rs imm)
  | 0x0F#6 => .ok (.lui rt imm)
  | 0x10#6 => decodeCop0 w
  | 0x1C#6 => decodeMul w
  | 0x20#6 => .ok (.lb rt rs imm)
  | 0x21#6 => .ok (.lh rt rs imm)
  | 0x23#6 => .ok (.lw rt rs imm)
  | 0x24#6 => .ok (.lbu rt rs imm)
  | 0x25#6 => .ok (.lhu rt rs imm)
  | 0x28#6 => .ok (.sb rt rs imm)
  | 0x29#6 => .ok (.sh rt rs imm)
  | 0x2B#6 => .ok (.sw rt rs imm)
  | _ => .error .noSuchOpcode

/-! ### Byte order (20_memory.md R52) -/

/-- The value whose bytes are given, lowest byte of the value first. -/
def joinLow : List Byte → Word
  | [] => 0#32
  | b :: bs => b.setWidth 32 ||| (joinLow bs <<< 8)

/-- The `n` low bytes of a value, lowest first. -/
def splitLow : Nat → Word → List Byte
  | 0, _ => []
  | n + 1, v => v.setWidth 8 :: splitLow n (v >>> 8)

/-- The value of the bytes at rising addresses, zero-extended to 32 bits (R52: MemRead). -/
def joinBytes : ByteOrder → List Byte → Word
  | .little, bs => joinLow bs
  | .big, bs => joinLow bs.reverse

/-- The `n` low bytes of a value, at rising addresses (R52: MemWrite). -/
def splitBytes : ByteOrder → Nat → Word → List Byte
  | .little, n, v => splitLow n v
  | .big, n, v => (splitLow n v).reverse

/-- The instruction at the head of a byte stream, and the rest of the stream (R80: always 4 bytes). -/
def decode (order : ByteOrder) : List Byte → Except Unlisted (Instr × List Byte)
  | b0 :: b1 :: b2 :: b3 :: rest =>
    match decodeWord (joinBytes order [b0, b1, b2, b3]) with
    | .ok i => .ok (i, rest)
    | .error e => .error e
  | _ => .error .tooShort

/-- The host's numbering of an instruction's bits: bit 0 is bit 0 of the one 32-bit word, bits above
`nbits` are zero. The word is laid out little-endian, the default byte order (R52), and decoded. -/
def decodeTableWord (nbits w : Nat) : Option Instr :=
  match decode .little (splitBytes .little 4 (BitVec.ofNat 32 (w % 2 ^ nbits))) with
  | .ok (i, _) => some i
  | .error _ => none

/-! ### The encoder (R81 to R83, R95; don't-care fields as R103) -/

/-- An R-type word (R81). -/
def rType (op : BitVec 6) (rs rt rd : Reg) (shamt : Shamt) (fn : BitVec 6) : Word :=
  op ++ rs ++ rt ++ rd ++ shamt ++ fn

/-- An I-type word (R82). -/
def iType (op : BitVec 6) (rs rt : Reg) (imm : Imm) : Word := op ++ rs ++ rt ++ imm

/-- A J-type word (R83). -/
def jType (op : BitVec 6) (addr : JumpField) : Word := op ++ addr

/-- The canonical word of an instruction: the pattern of R95, don't-care fields zero except the `rd`
field of JALR, which is 11111 (R103). -/
def encode : Instr → Word
  | .add rd rs rt => rType 0x00 rs rt rd 0 0x20
  | .addu rd rs rt => rType 0x00 rs rt rd 0 0x21
  | .addi rt rs imm => iType 0x08 rs rt imm
  | .addiu rt rs imm => iType 0x09 rs rt imm
  | .slt rd rs rt => rType 0x00 rs rt rd 0 0x2A
  | .sltu rd rs rt => rType 0x00 rs rt rd 0 0x2B
  | .slti rt rs imm => iType 0x0A rs rt imm
  | .sltiu rt rs imm => iType 0x0B rs rt imm
  | .sub rd rs rt => rType 0x00 rs rt rd 0 0x22
  | .subu rd rs rt => rType 0x00 rs rt rd 0 0x23
  | .and rd rs rt => rType 0x00 rs rt rd 0 0x24
  | .andi rt rs imm => iType 0x0C rs rt imm
  | .lui rt imm => iType 0x0F 0 rt imm
  | .nor rd rs rt => rType 0x00 rs rt rd 0 0x27
  | .or rd rs rt => rType 0x00 rs rt rd 0 0x25
  | .ori rt rs imm => iType 0x0D rs rt imm
  | .xor rd rs rt => rType 0x00 rs rt rd 0 0x26
  | .xori rt rs imm => iType 0x0E rs rt imm
  | .beq rs rt imm => iType 0x04 rs rt imm
  | .bne rs rt imm => iType 0x05 rs rt imm
  | .bgez rs imm => iType 0x01 rs 1 imm
  | .bgtz rs imm => iType 0x07 rs 0 imm
  | .blez rs imm => iType 0x06 rs 0 imm
  | .bltz rs imm => iType 0x01 rs 0 imm
  | .j addr => jType 0x02 addr
  | .jal addr => jType 0x03 addr
  | .jr rs => rType 0x00 rs 0 0 0 0x08
  | .jalr rs => rType 0x00 rs 0 31 0 0x09
  | .div rs rt => rType 0x00 rs rt 0 0 0x1A
  | .divu rs rt => rType 0x00 rs rt 0 0 0x1B
  | .mfhi rd => rType 0x00 0 0 rd 0 0x10
  | .mthi rs => rType 0x00 rs 0 0 0 0x11
  | .mflo rd => rType 0x00 0 0 rd 0 0x12
  | .mtlo rs => rType 0x00 rs 0 0 0 0x13
  | .mult rs rt => rType 0x00 rs rt 0 0 0x18
  | .multu rs rt => rType 0x00 rs rt 0 0 0x19
  | .mul rd rs rt => rType 0x1C rs rt rd 0 0x02
  | .lb rt rs imm => iType 0x20 rs rt imm
  | .lbu rt rs imm => iType 0x24 rs rt imm
  | .lh rt rs imm => iType 0x21 rs rt imm
  | .lhu rt rs imm => iType 0x25 rs rt imm
  | .lw rt rs imm => iType 0x23 rs rt imm
  | .sb rt rs imm => iType 0x28 rs rt imm
  | .sh rt rs imm => iType 0x29 rs rt imm
  | .sw rt rs imm => iType 0x2B rs rt imm
  | .mfc0 rt rd => rType 0x10 0 rt rd 0 0
  | .mtc0 rt rd => rType 0x10 4 rt rd 0 0
  | .nop => 0
  | .sll rd rt shamt => rType 0x00 0 rt rd shamt 0x00
  | .sllv rd rt rs => rType 0x00 rs rt rd 0 0x04
  | .srl rd rt shamt => rType 0x00 0 rt rd shamt 0x02
  | .srlv rd rt rs => rType 0x00 rs rt rd 0 0x06
  | .sra rd rt shamt => rType 0x00 0 rt rd shamt 0x03
  | .srav rd rt rs => rType 0x00 rs rt rd 0 0x07

/-! ### The pattern table (R95) -/

/-- One row of R95: "a word `w` is the instruction exactly when `w & mask = match`". -/
structure Pattern where
  bits : Word
  mask : Word
  deriving DecidableEq, Repr

/-- A word matches a row of the pattern table (R95). -/
abbrev Pattern.matches (p : Pattern) (w : Word) : Prop := w &&& p.mask = p.bits

/-- The row of R95 that an instruction belongs to. -/
def Instr.pattern : Instr → Pattern
  | .add _ _ _ => ⟨0x00000020#32, 0xFC0007FF#32⟩
  | .addu _ _ _ => ⟨0x00000021#32, 0xFC0007FF#32⟩
  | .addi _ _ _ => ⟨0x20000000#32, 0xFC000000#32⟩
  | .addiu _ _ _ => ⟨0x24000000#32, 0xFC000000#32⟩
  | .slt _ _ _ => ⟨0x0000002A#32, 0xFC0007FF#32⟩
  | .sltu _ _ _ => ⟨0x0000002B#32, 0xFC0007FF#32⟩
  | .slti _ _ _ => ⟨0x28000000#32, 0xFC000000#32⟩
  | .sltiu _ _ _ => ⟨0x2C000000#32, 0xFC000000#32⟩
  | .sub _ _ _ => ⟨0x00000022#32, 0xFC0007FF#32⟩
  | .subu _ _ _ => ⟨0x00000023#32, 0xFC0007FF#32⟩
  | .and _ _ _ => ⟨0x00000024#32, 0xFC0007FF#32⟩
  | .andi _ _ _ => ⟨0x30000000#32, 0xFC000000#32⟩
  | .lui _ _ => ⟨0x3C000000#32, 0xFC000000#32⟩
  | .nor _ _ _ => ⟨0x00000027#32, 0xFC0007FF#32⟩
  | .or _ _ _ => ⟨0x00000025#32, 0xFC0007FF#32⟩
  | .ori _ _ _ => ⟨0x34000000#32, 0xFC000000#32⟩
  | .xor _ _ _ => ⟨0x00000026#32, 0xFC0007FF#32⟩
  | .xori _ _ _ => ⟨0x38000000#32, 0xFC000000#32⟩
  | .beq _ _ _ => ⟨0x10000000#32, 0xFC000000#32⟩
  | .bne _ _ _ => ⟨0x14000000#32, 0xFC000000#32⟩
  | .bgez _ _ => ⟨0x04010000#32, 0xFC1F0000#32⟩
  | .bgtz _ _ => ⟨0x1C000000#32, 0xFC000000#32⟩
  | .blez _ _ => ⟨0x18000000#32, 0xFC000000#32⟩
  | .bltz _ _ => ⟨0x04000000#32, 0xFC1F0000#32⟩
  | .j _ => ⟨0x08000000#32, 0xFC000000#32⟩
  | .jal _ => ⟨0x0C000000#32, 0xFC000000#32⟩
  | .jr _ => ⟨0x00000008#32, 0xFC0007FF#32⟩
  | .jalr _ => ⟨0x00000009#32, 0xFC0007FF#32⟩
  | .div _ _ => ⟨0x0000001A#32, 0xFC0007FF#32⟩
  | .divu _ _ => ⟨0x0000001B#32, 0xFC0007FF#32⟩
  | .mfhi _ => ⟨0x00000010#32, 0xFC0007FF#32⟩
  | .mthi _ => ⟨0x00000011#32, 0xFC0007FF#32⟩
  | .mflo _ => ⟨0x00000012#32, 0xFC0007FF#32⟩
  | .mtlo _ => ⟨0x00000013#32, 0xFC0007FF#32⟩
  | .mult _ _ => ⟨0x00000018#32, 0xFC0007FF#32⟩
  | .multu _ _ => ⟨0x00000019#32, 0xFC0007FF#32⟩
  | .mul _ _ _ => ⟨0x70000002#32, 0xFC0007FF#32⟩
  | .lb _ _ _ => ⟨0x80000000#32, 0xFC000000#32⟩
  | .lbu _ _ _ => ⟨0x90000000#32, 0xFC000000#32⟩
  | .lh _ _ _ => ⟨0x84000000#32, 0xFC000000#32⟩
  | .lhu _ _ _ => ⟨0x94000000#32, 0xFC000000#32⟩
  | .lw _ _ _ => ⟨0x8C000000#32, 0xFC000000#32⟩
  | .sb _ _ _ => ⟨0xA0000000#32, 0xFC000000#32⟩
  | .sh _ _ _ => ⟨0xA4000000#32, 0xFC000000#32⟩
  | .sw _ _ _ => ⟨0xAC000000#32, 0xFC000000#32⟩
  | .mfc0 _ _ => ⟨0x40000000#32, 0xFFE007FF#32⟩
  | .mtc0 _ _ => ⟨0x40800000#32, 0xFFE007FF#32⟩
  | .nop => ⟨0x00000000#32, 0xFFFFFFFF#32⟩
  | .sll _ _ _ => ⟨0x00000000#32, 0xFC00003F#32⟩
  | .sllv _ _ _ => ⟨0x00000004#32, 0xFC0007FF#32⟩
  | .srl _ _ _ => ⟨0x00000002#32, 0xFC00003F#32⟩
  | .srlv _ _ _ => ⟨0x00000006#32, 0xFC0007FF#32⟩
  | .sra _ _ _ => ⟨0x00000003#32, 0xFC00003F#32⟩
  | .srav _ _ _ => ⟨0x00000007#32, 0xFC0007FF#32⟩

/-- The rows of 40_*.md, one instruction of each constructor standing for its row. -/
def Instr.rowsArithmetic : List Instr :=
  [.add 0#5 0#5 0#5, .addu 0#5 0#5 0#5, .addi 0#5 0#5 0#16, .addiu 0#5 0#5 0#16,
   .slt 0#5 0#5 0#5, .sltu 0#5 0#5 0#5, .slti 0#5 0#5 0#16, .sltiu 0#5 0#5 0#16,
   .sub 0#5 0#5 0#5, .subu 0#5 0#5 0#5]

/-- The rows of 41_*.md, one instruction of each constructor standing for its row. -/
def Instr.rowsLogical : List Instr :=
  [.and 0#5 0#5 0#5, .andi 0#5 0#5 0#16, .lui 0#5 0#16, .nor 0#5 0#5 0#5,
   .or 0#5 0#5 0#5, .ori 0#5 0#5 0#16, .xor 0#5 0#5 0#5, .xori 0#5 0#5 0#16]

/-- The rows of 42_*.md, one instruction of each constructor standing for its row. -/
def Instr.rowsControl : List Instr :=
  [.beq 0#5 0#5 0#16, .bne 0#5 0#5 0#16, .bgez 0#5 0#16, .bgtz 0#5 0#16,
   .blez 0#5 0#16, .bltz 0#5 0#16, .j 0#26, .jal 0#26,
   .jr 0#5, .jalr 0#5]

/-- The rows of 43_*.md, one instruction of each constructor standing for its row. -/
def Instr.rowsMulDiv : List Instr :=
  [.div 0#5 0#5, .divu 0#5 0#5, .mfhi 0#5, .mthi 0#5,
   .mflo 0#5, .mtlo 0#5, .mult 0#5 0#5, .multu 0#5 0#5,
   .mul 0#5 0#5 0#5]

/-- The rows of 44_*.md, one instruction of each constructor standing for its row. -/
def Instr.rowsLoadStore : List Instr :=
  [.lb 0#5 0#5 0#16, .lbu 0#5 0#5 0#16, .lh 0#5 0#5 0#16, .lhu 0#5 0#5 0#16,
   .lw 0#5 0#5 0#16, .sb 0#5 0#5 0#16, .sh 0#5 0#5 0#16, .sw 0#5 0#5 0#16]

/-- The rows of 45_*.md, one instruction of each constructor standing for its row. -/
def Instr.rowsCop0 : List Instr :=
  [.mfc0 0#5 0#5, .mtc0 0#5 0#5]

/-- The rows of 46_*.md, one instruction of each constructor standing for its row. -/
def Instr.rowsShift : List Instr :=
  [.nop, .sll 0#5 0#5 0#5, .sllv 0#5 0#5 0#5, .srl 0#5 0#5 0#5,
   .srlv 0#5 0#5 0#5, .sra 0#5 0#5 0#5, .srav 0#5 0#5 0#5]

/-- The 54 rows of R95. -/
def Instr.rows : List Instr :=
  rowsArithmetic ++ rowsLogical ++ rowsControl ++ rowsMulDiv ++
    rowsLoadStore ++ rowsCop0 ++ rowsShift

end Sys2Proof
end

