-- ==== Sys2Proof/Machine/State.lean ====
section
/-! DEFINITION. The state of the machine as plain data (10_state.md R32), the reasons a step can stop
(60_exceptions.md R251), and the state after reset (R33, R281). -/

namespace Sys2Proof.Machine

/-- What kind of access met a stop: the "fetch or load or store" of R251. -/
inductive AccessKind where
  | fetch
  | load
  | store
  deriving DecidableEq, Repr

/-- The three widths of an access (R51). -/
inductive Width where
  | byte
  | half
  | word
  deriving DecidableEq, Repr

/-- Memory: the bytes that hold a value, by address, addresses strictly rising (R30). -/
abbrev Memory := List Host.Cell

/-- The canonical form: addresses strictly rising, all inside the 32-bit space. -/
abbrev Memory.wf (m : Memory) : Prop :=
  m.Pairwise (fun c d => c.1 < d.1) ∧ ∀ c ∈ m, c.1 < 4294967296

/-- Strictly rising lists of addresses, the canonical form of `Config.programText`. -/
abbrev Ascending (l : List Nat) : Prop := l.Pairwise (· < ·)

/-- The state of the machine: R32's complete list (general registers, HI, LO, pc, npc,
in_delay_slot, coprocessor 0, memory), the parameters of R31 and R7, the program text among them (`cfg`), and
two fields of the model's own (`mfc0Wait`, `draws`). -/
structure State where
  /-- the general registers; slot 0 is never read and never written (R20, R22; log 30) -/
  gpr : Vector Word 32
  /-- HI (R25) -/
  hi : Word
  /-- LO (R25) -/
  lo : Word
  /-- the address of the instruction being executed (R26) -/
  pc : Word
  /-- the address of the instruction executed after it (R27) -/
  npc : Word
  /-- the current instruction follows a control transfer (R27) -/
  inDelaySlot : Bool
  /-- the coprocessor 0 registers, opaque (R29, R32) -/
  cp0 : Vector Word 32
  /-- memory (R30) -/
  mem : Memory
  /-- the parameters of the step relation (R31, R7); no step changes them -/
  cfg : Config
  /-- under CP0_MODEL = supplied, the general registers that MFC0 has written lately, each with how many more
  instructions may not use it (R286; log 32) -/
  mfc0Wait : List (Reg × Nat)
  /-- how many draws of free values have been made (R190, R60; log 17) -/
  draws : Nat
  deriving DecidableEq, Repr

/-- Why a step stops with a fault: the conditions of R251, which end the defined execution, and two more
of the spec's. Each carries R251's would-be info. All are SAFE: the model makes no step where the spec
defines none. -/
inductive Fault where
  /-- LH, LHU, SH at an odd address, LW, SW at an address not a multiple of 4 (R54, R209, U1); safe -/
  | misaligned (ea : Word) (width : Width) (kind : AccessKind)
  /-- a fetch with `pc[1:0]` not 00 (R55, R165, U2); safe -/
  | misalignedTarget (pc : Word)
  /-- a byte of a fetch, load or store lies in no region of MEM_MAP (R58, U3); safe -/
  | unmappedAddress (address : Word) (kind : AccessKind)
  /-- a byte of a store lies in the program text (R63, R209, R287, U5); safe -/
  | storeIntoProgramText (ea : Word)
  /-- the fetched word is no row of R95 (R97, U6); safe -/
  | unlistedEncoding (word : Word) (pc : Word) (why : Unlisted)
  /-- one of the ten control transfers in a delay slot (R163, U8); safe -/
  | controlTransferInDelaySlot (pc : Word)
  /-- JALR with `rs` 31 (R164, U9); safe -/
  | jalrSameRegister (pc : Word)
  /-- MFC0 or MTC0 under CP0_MODEL = opaque (R223, U10); safe -/
  | cop0 (word : Word) (pc : Word)
  /-- under CP0_MODEL = supplied, an instruction uses a general register too soon after the MFC0 that wrote
  it (R286; log 32); safe -/
  | mfc0Hazard (r : Reg) (pc : Word)
  /-- ADD, ADDI, SUB beyond the signed range under OVERFLOW_POLICY = refuse (R120, U11); safe -/
  | signedOverflow (pc : Word)
  /-- a fetch or load of a byte of ram that neither the loader nor the program has written (R34, U15);
  safe -/
  | unwrittenByte (address : Word) (kind : AccessKind)
  deriving DecidableEq, Repr

/-- Why a step is refused. All are SAFE: nothing is claimed of a refused step. -/
inductive Refusal where
  /-- an instruction without a meaning yet, named as the opcode table names it; safe -/
  | notModelled (mnemonic : String)
  /-- an access to a `device` region, whose behaviour the spec does not give (R58, U4); safe -/
  | deviceAccess (address : Word) (kind : AccessKind)
  /-- a configuration with a positive LOAD_DELAY or HILO_DELAY, for which the spec states no effect
  (R284, R285; log 24); safe -/
  | delaysUndefined
  /-- a configuration in which interrupts may be taken, outside the launch premise INTERRUPTS = none (R252,
  U20; log 23); safe -/
  | interruptsUndefined
  /-- a fetch of a byte that the configuration does not count to the program text: the run is not one of
  that configuration, whose text is to hold every address the run fetches from (R63, D9; log 13); safe -/
  | fetchOutsideProgramText (address : Word)
  deriving DecidableEq, Repr

/-- An answer: a value, a fault or a refusal. -/
abbrev Res (α : Type) := Host.Outcome α Fault Refusal

/-- The machine right after reset (R33, R281): `pc` RESET_PC, `npc` RESET_PC + 4, not in a delay slot, `$0`
zero, memory "whatever the platform has loaded; an argument of the model". The registers the spec leaves
unspecified hold 0 (log 1). -/
def State.resetWith (c : Config) (loaded : Memory) : State where
  gpr := Vector.replicate 32 0
  hi := 0
  lo := 0
  pc := c.resetPc
  npc := c.resetPc + 4
  inDelaySlot := false
  cp0 := Vector.replicate 32 0
  mem := loaded
  cfg := c
  mfc0Wait := []
  draws := 0

/-- The machine right after reset with the standard configuration and nothing loaded (log 2). -/
def State.reset : State := State.resetWith Config.standard []

end Sys2Proof.Machine
end

