-- ==== Sys2Proof/Machine/Flags.lean ====
section
/-! DEFINITION. Conditions. The hardware has no flag register (10_state.md R28): no carry, no overflow and
no condition code is recorded anywhere. What stands here are the conditions instructions test or
deliver: the comparisons (R121, R167) and signed overflow, which only OVERFLOW_POLICY = refuse looks at
(R120). -/

namespace Sys2Proof.Machine

/-- `signed(a) < signed(b)` (R121: SLT, SLTI). -/
def ltSigned (a b : Word) : Bool := decide (a.toInt < b.toInt)

/-- `unsigned(a) < unsigned(b)` (R121: SLTU, SLTIU). -/
def ltUnsigned (a b : Word) : Bool := decide (a.toNat < b.toNat)

/-- What the four set-on-less-than instructions write: exactly 1 or 0 (R121). -/
def boolWord (c : Bool) : Word := if c then 1 else 0

/-- BGEZ's condition: `signed(a) >= 0` (R155). -/
def geZero (a : Word) : Bool := decide (0 ≤ a.toInt)

/-- BGTZ's condition: `signed(a) > 0` (R156). -/
def gtZero (a : Word) : Bool := decide (0 < a.toInt)

/-- BLEZ's condition: `signed(a) <= 0` (R157). -/
def leZero (a : Word) : Bool := decide (a.toInt ≤ 0)

/-- BLTZ's condition: `signed(a) < 0` (R158). -/
def ltZero (a : Word) : Bool := decide (a.toInt < 0)

/-- An integer outside -2^31 to 2^31 - 1 (R120). -/
def outsideSigned (n : Int) : Bool := decide (n < -2147483648) || decide (2147483647 < n)

/-- Signed overflow of an addition: `signed(a) + signed(b)` does not fit (R120). -/
def addOverflows (a b : Word) : Bool := outsideSigned (a.toInt + b.toInt)

/-- Signed overflow of a subtraction (R120). -/
def subOverflows (a b : Word) : Bool := outsideSigned (a.toInt - b.toInt)

/-- The one signed division whose quotient does not fit: `0x80000000 / 0xFFFFFFFF` (R180, D13). -/
def divOverflows (a b : Word) : Bool := a == 0x80000000#32 && b == 0xFFFFFFFF#32

end Sys2Proof.Machine
end

