-- ==== Sys2Proof/Machine/Operands.lean ====
section
/-! DEFINITION. Operand forms: the registers and their special cases, the extended immediates, the
effective address, branch and jump targets, shift amounts (30_encoding.md R85 to R90, 44_load_store.md
R200), and which registers an instruction reads and writes (10_state.md R24). -/

namespace Sys2Proof.Machine

/-! ### General registers (R20 to R23) -/

/-- `x[r]`: register 0 reads zero (R10, R22). -/
def State.reg (s : State) (r : Reg) : Word := if r = 0#5 then 0#32 else s.gpr[r.toNat]

/-- `x[r] <- v`: a write to register 0 is discarded (R10, R22). -/
def State.setReg (s : State) (r : Reg) (v : Word) : State :=
  { s with gpr := if r = 0#5 then s.gpr else s.gpr.set r.toNat v }

/-! ### Immediates (R85, R86, R87) -/

/-- `SignImm` (R85). -/
def signImm (imm : Imm) : Word := imm.signExtend 32

/-- `ZeroImm` (R86). -/
def zeroImm (imm : Imm) : Word := imm.setWidth 32

/-- The LUI immediate: `imm` in the upper half, zeros below (R87). -/
def upperImm (imm : Imm) : Word := imm ++ 0#16

/-! ### Addresses (R57, R88, R89, R151, R200) -/

/-- The effective address of a load or store: base plus signed displacement, modulo 2^32 (R57, R200). -/
def State.ea (s : State) (rs : Reg) (imm : Imm) : Word := s.reg rs + signImm imm

/-- What "PC" denotes in the Operation lines of branches and jumps (R151): the instruction's own address,
or, in the alternative reading of D1, the address of its delay slot. -/
def State.pcBase (s : State) : Word :=
  match s.cfg.pcBase with
  | .ownAddress => s.pc
  | .delaySlot => s.pc + 4

/-- The branch target: PC + 4 plus the signed count of instructions times 4 (R88, R151). -/
def State.branchTarget (s : State) (imm : Imm) : Word := s.pcBase + 4 + (signImm imm <<< 2)

/-- The jump target: the region of PC + 4, the field, two zero bits (R89, R151). -/
def State.jumpTarget (s : State) (addr : JumpField) : Word :=
  (s.pcBase + 4).extractLsb' 28 4 ++ addr ++ 0#2

/-- The return address of JAL and JALR: LINK_OFFSET, 8, past the instruction, which is the instruction after
the delay slot (R152). -/
def State.linkAddress (s : State) : Word := s.pc + s.cfg.linkOffset

/-! ### Shift amounts (R90) -/

/-- The amount of a variable shift: the low five bits of a register (R90). -/
def shiftAmount (v : Word) : Shamt := v.extractLsb' 0 5

/-! ### Which registers an instruction reads and writes (R24), and the ten control transfers -/

/-- The general register an instruction writes (R24); `none` if it writes none. -/
def destination : Instr → Option Reg
  | .add rd _ _ => some rd
  | .addu rd _ _ => some rd
  | .addi rt _ _ => some rt
  | .addiu rt _ _ => some rt
  | .slt rd _ _ => some rd
  | .sltu rd _ _ => some rd
  | .slti rt _ _ => some rt
  | .sltiu rt _ _ => some rt
  | .sub rd _ _ => some rd
  | .subu rd _ _ => some rd
  | .and rd _ _ => some rd
  | .andi rt _ _ => some rt
  | .lui rt _ => some rt
  | .nor rd _ _ => some rd
  | .or rd _ _ => some rd
  | .ori rt _ _ => some rt
  | .xor rd _ _ => some rd
  | .xori rt _ _ => some rt
  | .beq _ _ _ => none
  | .bne _ _ _ => none
  | .bgez _ _ => none
  | .bgtz _ _ => none
  | .blez _ _ => none
  | .bltz _ _ => none
  | .j _ => none
  | .jal _ => some ra
  | .jr _ => none
  | .jalr _ => some ra
  | .div _ _ => none
  | .divu _ _ => none
  | .mfhi rd => some rd
  | .mthi _ => none
  | .mflo rd => some rd
  | .mtlo _ => none
  | .mult _ _ => none
  | .multu _ _ => none
  | .mul rd _ _ => some rd
  | .lb rt _ _ => some rt
  | .lbu rt _ _ => some rt
  | .lh rt _ _ => some rt
  | .lhu rt _ _ => some rt
  | .lw rt _ _ => some rt
  | .sb _ _ _ => none
  | .sh _ _ _ => none
  | .sw _ _ _ => none
  | .mfc0 rt _ => some rt
  | .mtc0 _ _ => none
  | .nop => none
  | .sll rd _ _ => some rd
  | .sllv rd _ _ => some rd
  | .srl rd _ _ => some rd
  | .srlv rd _ _ => some rd
  | .sra rd _ _ => some rd
  | .srav rd _ _ => some rd

/-- The general registers an instruction reads (R24). -/
def sources : Instr → List Reg
  | .add _ rs rt => [rs, rt]
  | .addu _ rs rt => [rs, rt]
  | .addi _ rs _ => [rs]
  | .addiu _ rs _ => [rs]
  | .slt _ rs rt => [rs, rt]
  | .sltu _ rs rt => [rs, rt]
  | .slti _ rs _ => [rs]
  | .sltiu _ rs _ => [rs]
  | .sub _ rs rt => [rs, rt]
  | .subu _ rs rt => [rs, rt]
  | .and _ rs rt => [rs, rt]
  | .andi _ rs _ => [rs]
  | .lui _ _ => []
  | .nor _ rs rt => [rs, rt]
  | .or _ rs rt => [rs, rt]
  | .ori _ rs _ => [rs]
  | .xor _ rs rt => [rs, rt]
  | .xori _ rs _ => [rs]
  | .beq rs rt _ => [rs, rt]
  | .bne rs rt _ => [rs, rt]
  | .bgez rs _ => [rs]
  | .bgtz rs _ => [rs]
  | .blez rs _ => [rs]
  | .bltz rs _ => [rs]
  | .j _ => []
  | .jal _ => []
  | .jr rs => [rs]
  | .jalr rs => [rs]
  | .div rs rt => [rs, rt]
  | .divu rs rt => [rs, rt]
  | .mfhi _ => []
  | .mthi rs => [rs]
  | .mflo _ => []
  | .mtlo rs => [rs]
  | .mult rs rt => [rs, rt]
  | .multu rs rt => [rs, rt]
  | .mul _ rs rt => [rs, rt]
  | .lb _ rs _ => [rs]
  | .lbu _ rs _ => [rs]
  | .lh _ rs _ => [rs]
  | .lhu _ rs _ => [rs]
  | .lw _ rs _ => [rs]
  | .sb rt rs _ => [rs, rt]
  | .sh rt rs _ => [rs, rt]
  | .sw rt rs _ => [rs, rt]
  | .mfc0 _ _ => []
  | .mtc0 rt _ => [rt]
  | .nop => []
  | .sll _ rt _ => [rt]
  | .sllv _ rt rs => [rs, rt]
  | .srl _ rt _ => [rt]
  | .srlv _ rt rs => [rs, rt]
  | .sra _ rt _ => [rt]
  | .srav _ rt rs => [rs, rt]

/-- The ten control-transfer instructions, whose next instruction is in a delay slot (R150: `is_ct`). -/
def isControlTransfer : Instr → Bool
  | .add _ _ _ => false
  | .addu _ _ _ => false
  | .addi _ _ _ => false
  | .addiu _ _ _ => false
  | .slt _ _ _ => false
  | .sltu _ _ _ => false
  | .slti _ _ _ => false
  | .sltiu _ _ _ => false
  | .sub _ _ _ => false
  | .subu _ _ _ => false
  | .and _ _ _ => false
  | .andi _ _ _ => false
  | .lui _ _ => false
  | .nor _ _ _ => false
  | .or _ _ _ => false
  | .ori _ _ _ => false
  | .xor _ _ _ => false
  | .xori _ _ _ => false
  | .beq _ _ _ => true
  | .bne _ _ _ => true
  | .bgez _ _ => true
  | .bgtz _ _ => true
  | .blez _ _ => true
  | .bltz _ _ => true
  | .j _ => true
  | .jal _ => true
  | .jr _ => true
  | .jalr _ => true
  | .div _ _ => false
  | .divu _ _ => false
  | .mfhi _ => false
  | .mthi _ => false
  | .mflo _ => false
  | .mtlo _ => false
  | .mult _ _ => false
  | .multu _ _ => false
  | .mul _ _ _ => false
  | .lb _ _ _ => false
  | .lbu _ _ _ => false
  | .lh _ _ _ => false
  | .lhu _ _ _ => false
  | .lw _ _ _ => false
  | .sb _ _ _ => false
  | .sh _ _ _ => false
  | .sw _ _ _ => false
  | .mfc0 _ _ => false
  | .mtc0 _ _ => false
  | .nop => false
  | .sll _ _ _ => false
  | .sllv _ _ _ => false
  | .srl _ _ _ => false
  | .srlv _ _ _ => false
  | .sra _ _ _ => false
  | .srav _ _ _ => false
end Sys2Proof.Machine
end

