-- ==== Sys2Proof/Machine/Ops.lean ====
section
/-! DEFINITION. The named operations every meaning is made of: sequencing of answers, advancing (R150),
bytes of memory (R30), the memory map (R58), loads and stores (R54, R209), instruction fetch (R55),
control transfers (R150, R163).

Taking an exception: there is no such operation. The hardware as documented has no trap entry and no trap
return (60_exceptions.md R250, R254, R255), and "a model of this spec has no trap-entry function" (R254);
the conditions of R251 are the faults of State.lean. -/

namespace Sys2Proof.Machine

/-- Sequencing: go on with the value of an answer, or stop where it stopped. -/
def andThen {α β : Type} (o : Res α) (k : α → Res β) : Res β :=
  match o with
  | .next a => k a
  | .fault f => .fault f
  | .refused r => .refused r

/-! ### The end of a step (R150) -/

/-- The end of the step of an instruction that is not a control transfer: `pc <- npc`,
`npc <- npc + 4`, `in_delay_slot <- false` (R150). -/
def State.advance (s : State) : State :=
  { s with pc := s.npc, npc := s.npc + 4, inDelaySlot := false }

/-- The end of the step of a control transfer: `pc <- npc`, then the target, or the sequential address
where the branch is not taken, and `in_delay_slot <- true` (R150). -/
def State.transfer (s : State) (target : Option Word) : State :=
  { s with pc := s.npc, npc := target.getD (s.npc + 4), inDelaySlot := true }

/-- A control transfer in a delay slot ends the defined execution, whether or not the first one was taken
(R163). -/
def outsideDelaySlot (s : State) (k : Res State) : Res State :=
  if s.inDelaySlot then .fault (.controlTransferInDelaySlot s.pc) else k

/-- A conditional branch (R88, R150, R167): to the branch target if the condition holds. -/
def branchIf (c : Bool) (imm : Imm) (s : State) : Res State :=
  outsideDelaySlot s (.next (s.transfer (if c then some (s.branchTarget imm) else none)))

/-- The end of an instruction whose result goes to a general register: write it, then go on. -/
def writeResult (r : Reg) (v : Word) (s : State) : Res State := .next (s.setReg r v).advance

/-- Signed overflow under OVERFLOW_POLICY: wrap goes on, refuse ends the defined execution (R120). -/
def unlessOverflow (overflows : Bool) (s : State) (k : Res State) : Res State :=
  if overflows = true ∧ s.cfg.overflow = .refuse then .fault (.signedOverflow s.pc) else k

/-! ### HI, LO and coprocessor 0 (R25, R29) -/

/-- Write HI and LO. -/
def State.setHiLo (s : State) (h l : Word) : State := { s with hi := h, lo := l }

/-- Draw HI and LO: two free values, possibly different at each draw (R190, D12; log 16). -/
def State.drawHiLo (s : State) : State :=
  { s with
    hi := drawnHi s.cfg.div0Result s.draws, lo := drawnLo s.cfg.div0Result s.draws
    draws := s.draws + 1 }

/-- The coprocessor 0 registers after an access under CP0_MODEL = supplied; the access counts as a draw,
so that no two accesses need agree (R223; log 22). -/
def State.accessCp0 (s : State) (c : Vector Word 32) : State :=
  { s with cp0 := c, draws := s.draws + 1 }

/-- How many more instructions may not use a general register (R286; log 32): 0 where no wait is noted. -/
def waitOf : List (Reg × Nat) → Reg → Nat
  | [], _ => 0
  | p :: l, r => if p.1 = r then p.2 else waitOf l r

/-- Every wait one shorter. -/
def shorterWaits (l : List (Reg × Nat)) : List (Reg × Nat) := l.map fun p => (p.1, p.2 - 1)

/-- After MFC0 has written a general register, under CP0_MODEL = supplied: the next `mfc0Delay` instructions
may not use it (R286; log 32). Register 0 is constant and never waits. -/
def State.startMfc0Wait (s : State) (r : Reg) : State :=
  let others := s.mfc0Wait.filter fun p => decide (p.1 ≠ r)
  { s with mfc0Wait := if r = 0#5 ∨ s.cfg.mfc0Delay = 0 then others else (r, s.cfg.mfc0Delay) :: others }

/-- One more instruction has begun: every wait for an MFC0 is one shorter (R286; log 32). -/
def State.tickMfc0Wait (s : State) : State := { s with mfc0Wait := shorterWaits s.mfc0Wait }

/-- No register that an instruction uses is still waiting for its MFC0 (R286; log 32). -/
def checkMfc0Wait (s : State) (i : Instr) : Res Unit :=
  match (sources i).find? (fun r => decide (waitOf s.mfc0Wait r ≠ 0)) with
  | some r => .fault (.mfc0Hazard r s.pc)
  | none => .next ()

/-! ### The configuration (R7) -/

/-- The configurations for which the spec defines a machine: no delays (R284, R285; log 24) and no
interrupts (R252; log 23). -/
def checkConfig (s : State) : Res Unit :=
  if s.cfg.delaysDefined then
    match s.cfg.interrupts with
    | .none => .next ()
    | .possible => .refused .interruptsUndefined
  else .refused .delaysUndefined

/-! ### Bytes of memory (R30, R34) -/

/-- What an address with no entry reads as: no value. Nothing has written the byte, and reading it is a
fault (R34; log 4). -/
def unlistedByte : Option Byte := none

/-- One byte of memory. -/
def byteAt? : Memory → Nat → Option Byte
  | [], _ => unlistedByte
  | c :: m, a => if c.1 = a then some c.2 else byteAt? m a

/-- Write one byte of memory, keeping addresses strictly rising. -/
def setByte : Memory → Nat → Byte → Memory
  | [], a, b => [(a, b)]
  | c :: m, a, b =>
    if a < c.1 then (a, b) :: c :: m
    else if a = c.1 then (a, b) :: m
    else c :: setByte m a b

/-- Put an address into a strictly rising list, once. -/
def insertAscending : List Nat → Nat → List Nat
  | [], a => [a]
  | x :: l, a =>
    if a < x then a :: x :: l
    else if a = x then x :: l
    else x :: insertAscending l a

/-- How many bytes an access moves (R51). -/
def Width.bytes : Width → Nat
  | .byte => 1
  | .half => 2
  | .word => 4

/-- `n` consecutive byte addresses, modulo 2^32 (R52, R57). -/
def addresses : Nat → Word → List Word
  | 0, _ => []
  | n + 1, a => a :: addresses n (a + 1)

/-- The byte addresses of an access. -/
def footprint (w : Width) (a : Word) : List Word := addresses w.bytes a

/-! ### The memory map (R58) -/

/-- The kind of the first region of MEM_MAP that holds an address; `none`: nothing answers there. -/
def regionAt (map : List Region) (a : Nat) : Option RegionKind :=
  (map.find? (fun r => decide (r.base ≤ a ∧ a < r.base + r.size))).map (·.kind)

/-- Every byte of an access lies in memory: an absent address is UnmappedAddress, an address of a device
is refused (R58, R209). -/
def checkMap (s : State) (k : AccessKind) (as : List Word) : Res Unit :=
  match as.find? (fun a => decide (regionAt s.cfg.memMap a.toNat = none)) with
  | some a => .fault (.unmappedAddress a k)
  | none =>
    match as.find? (fun a => decide (regionAt s.cfg.memMap a.toNat = some .device)) with
    | some a => .refused (.deviceAccess a k)
    | none => .next ()

/-- A halfword at an even address, a word at a multiple of 4 (R54). -/
def aligned (w : Width) (a : Word) : Bool := a.toNat % w.bytes == 0

/-- The alignment check of a load or store, under MISALIGNED_POLICY (R54, R209). -/
def checkAligned (s : State) (k : AccessKind) (w : Width) (a : Word) : Res Unit :=
  if aligned w a then .next ()
  else
    match s.cfg.misaligned with
    | .refuse => .fault (.misaligned a w k)

/-! ### Reading (R52, R60) -/

/-- One byte as the core reads it: a free value where other masters write too (R60), else the byte of
memory, which must have been written (R34). -/
def readByte (s : State) (k : AccessKind) (a : Word) : Res Byte :=
  if regionAt s.cfg.memMap a.toNat = some .shared then .next (sharedByte s.draws a.toNat)
  else
    match byteAt? s.mem a.toNat with
    | some b => .next b
    | none => .fault (.unwrittenByte a k)

/-- The bytes at the given addresses, in order. -/
def readBytes (s : State) (k : AccessKind) : List Word → Res (List Byte)
  | [] => .next []
  | a :: as => andThen (readByte s k a) fun b => andThen (readBytes s k as) fun bs => .next (b :: bs)

/-- `MemRead(a, n)` after its checks, zero-extended to 32 bits, in the byte order of R52. -/
def readValue (s : State) (k : AccessKind) (w : Width) (a : Word) : Res Word :=
  andThen (readBytes s k (footprint w a)) fun bs => .next (joinBytes s.cfg.byteOrder bs)

/-- Does an access meet memory shared with other masters? -/
def touchesShared (s : State) (w : Width) (a : Word) : Bool :=
  (footprint w a).any fun b => decide (regionAt s.cfg.memMap b.toNat = some .shared)

/-- The state after a read: the counter of draws has moved if a free value was read (R60; log 12). -/
def State.afterRead (s : State) (w : Width) (a : Word) : State :=
  { s with draws := if touchesShared s w a then s.draws + 1 else s.draws }

/-- The value a load reads, with the checks of R209 in the order of R253. -/
def load (w : Width) (a : Word) (s : State) : Res Word :=
  andThen (checkAligned s .load w a) fun _ =>
    andThen (checkMap s .load (footprint w a)) fun _ => readValue s .load w a

/-- A load instruction: read, then write the loaded value to `rt` (R200 to R205). The read is performed
whatever `rt` is (R22, R66). -/
def loadTo (rt : Reg) (w : Width) (a : Word) (extend : Word → Word) (s : State) : Res State :=
  andThen (load w a s) fun v => .next (((s.afterRead w a).setReg rt (extend v)).advance)

/-! ### Writing (R51, R52, R63) -/

/-- Write bytes at the given addresses, in order. -/
def setBytes (m : Memory) : List Word → List Byte → Memory
  | a :: as, b :: bs => setBytes (setByte m a.toNat b) as bs
  | _, _ => m

/-- `MemWrite(a, n, v)` after its checks: the bytes of the access's width and no others (R51, R52). -/
def State.writeValue (s : State) (w : Width) (a v : Word) : State :=
  { s with mem := setBytes s.mem (footprint w a) (splitBytes s.cfg.byteOrder w.bytes v) }

/-- A store of which a byte lies in the program text ends the defined execution (R63, R209, R287), under
IFETCH_COHERENCE. -/
def checkNotText (s : State) (w : Width) (a : Word) : Res Unit :=
  match s.cfg.ifetchCoherence with
  | .immutableText =>
    if (footprint w a).any (fun b => decide (b.toNat ∈ s.cfg.programText)) then
      .fault (.storeIntoProgramText a)
    else .next ()

/-- A store instruction, with the checks of R209 in the order of R253. -/
def storeFrom (w : Width) (a v : Word) (s : State) : Res State :=
  andThen (checkAligned s .store w a) fun _ =>
    andThen (checkMap s .store (footprint w a)) fun _ =>
      andThen (checkNotText s w a) fun _ => .next (s.writeValue w a v).advance

/-! ### Instruction fetch (R55, R63, R67) -/

/-- Every byte of the word at `pc` belongs to the program text, the addresses that a run of this
configuration fetches from (R63). The check is the model's: DESIGN CHOICE, without which a run could fetch
what it has stored (log 13). -/
def checkInText (s : State) : Res Unit :=
  match (footprint .word s.pc).find? (fun b => decide (b.toNat ∉ s.cfg.programText)) with
  | some b => .refused (.fetchOutsideProgramText b)
  | none => .next ()

/-- The instruction word at `pc`: alignment, then the map (R253), then the read, then the text. -/
def fetch (s : State) : Res Word :=
  if aligned .word s.pc then
    andThen (checkMap s .fetch (footprint .word s.pc)) fun _ =>
      andThen (readValue s .fetch .word s.pc) fun v => andThen (checkInText s) fun _ => .next v
  else
    match s.cfg.misaligned with
    | .refuse => .fault (.misalignedTarget s.pc)

/-- The state in which a fetched instruction is executed: a draw has been made if the fetch met shared
memory (R60; log 12), and every wait for an MFC0 is one shorter (R286; log 32). -/
def State.afterFetch (s : State) : State := (s.afterRead .word s.pc).tickMfc0Wait

/-- A fetched word decoded, an unlisted one stopped under UNLISTED_ENCODING_POLICY (R97, R150). -/
def decodeFetched (s : State) (w : Word) : Res Instr :=
  match decodeWord w with
  | .ok i => .next i
  | .error e =>
    match s.cfg.unlistedEncoding with
    | .refuse => .fault (.unlistedEncoding w s.pc e)

/-! ### Loading before a run (R63, R282) -/

/-- Place one instruction word, as the platform's loader does before a run: its bytes, and their addresses
declared as program text (R63: "Loading a program before reset is the platform's business and not a store in
this sense"; D9: the text is what "the loader filled as instructions"). -/
def State.placeWord (s : State) (a w : Word) : State :=
  { s with
    mem := setBytes s.mem (footprint .word a) (splitBytes s.cfg.byteOrder 4 w)
    cfg := { s.cfg with
      programText := (footprint .word a).foldl (fun l b => insertAscending l b.toNat) s.cfg.programText } }

end Sys2Proof.Machine
end

