-- ==== Sys2Proof/Machine/Arithmetic.lean ====
section
/-! DEFINITION. Arithmetic and comparison instructions (40_arithmetic.md R110 to R121). -/

namespace Sys2Proof.Machine

/-- ADD (R110): `x[rd] <- (x[rs] + x[rt])[31:0]`; signed overflow as OVERFLOW_POLICY says (R120). -/
def execAdd (rd rs rt : Reg) (s : State) : Res State :=
  unlessOverflow (addOverflows (s.reg rs) (s.reg rt)) s (writeResult rd (s.reg rs + s.reg rt) s)

/-- ADDU (R111): `x[rd] <- (x[rs] + x[rt])[31:0]`. -/
def execAddu (rd rs rt : Reg) (s : State) : Res State :=
  writeResult rd (s.reg rs + s.reg rt) s

/-- ADDI (R112): `x[rt] <- (x[rs] + sext_32(imm))[31:0]`; signed overflow as OVERFLOW_POLICY says
(R120). -/
def execAddi (rt rs : Reg) (imm : Imm) (s : State) : Res State :=
  unlessOverflow (addOverflows (s.reg rs) (signImm imm)) s (writeResult rt (s.reg rs + signImm imm) s)

/-- ADDIU (R113): `x[rt] <- (x[rs] + sext_32(imm))[31:0]`. -/
def execAddiu (rt rs : Reg) (imm : Imm) (s : State) : Res State :=
  writeResult rt (s.reg rs + signImm imm) s

/-- SLT (R114): 1 if `signed(x[rs]) < signed(x[rt])`, else 0. -/
def execSlt (rd rs rt : Reg) (s : State) : Res State :=
  writeResult rd (boolWord (ltSigned (s.reg rs) (s.reg rt))) s

/-- SLTU (R115): 1 if `unsigned(x[rs]) < unsigned(x[rt])`, else 0. -/
def execSltu (rd rs rt : Reg) (s : State) : Res State :=
  writeResult rd (boolWord (ltUnsigned (s.reg rs) (s.reg rt))) s

/-- SLTI (R116): 1 if `signed(x[rs]) < signed(sext_32(imm))`, else 0. -/
def execSlti (rt rs : Reg) (imm : Imm) (s : State) : Res State :=
  writeResult rt (boolWord (ltSigned (s.reg rs) (signImm imm))) s

/-- SLTIU (R117): 1 if `unsigned(x[rs]) < unsigned(sext_32(imm))`, else 0. -/
def execSltiu (rt rs : Reg) (imm : Imm) (s : State) : Res State :=
  writeResult rt (boolWord (ltUnsigned (s.reg rs) (signImm imm))) s

/-- SUB (R118): `x[rd] <- (x[rs] - x[rt])[31:0]`; signed overflow as OVERFLOW_POLICY says (R120). -/
def execSub (rd rs rt : Reg) (s : State) : Res State :=
  unlessOverflow (subOverflows (s.reg rs) (s.reg rt)) s (writeResult rd (s.reg rs - s.reg rt) s)

/-- SUBU (R119): `x[rd] <- (x[rs] - x[rt])[31:0]`. -/
def execSubu (rd rs rt : Reg) (s : State) : Res State :=
  writeResult rd (s.reg rs - s.reg rt) s

end Sys2Proof.Machine
end

