-- ==== Sys2Proof/Machine/Control.lean ====
section
/-! DEFINITION. Control transfer (42_control_transfer.md R150 to R167). Every one has a delay slot: `transfer` leaves
`pc` at the slot and `npc` at the target, and inside a delay slot all ten stop (R163). -/

namespace Sys2Proof.Machine

/-- BEQ (R153): branch if `x[rs] = x[rt]`. -/
def execBeq (rs rt : Reg) (imm : Imm) (s : State) : Res State :=
  branchIf (decide (s.reg rs = s.reg rt)) imm s

/-- BNE (R154): branch if `x[rs] != x[rt]`. -/
def execBne (rs rt : Reg) (imm : Imm) (s : State) : Res State :=
  branchIf (decide (s.reg rs ≠ s.reg rt)) imm s

/-- BGEZ (R155): branch if `signed(x[rs]) >= 0`. -/
def execBgez (rs : Reg) (imm : Imm) (s : State) : Res State :=
  branchIf (geZero (s.reg rs)) imm s

/-- BGTZ (R156): branch if `signed(x[rs]) > 0`. -/
def execBgtz (rs : Reg) (imm : Imm) (s : State) : Res State :=
  branchIf (gtZero (s.reg rs)) imm s

/-- BLEZ (R157): branch if `signed(x[rs]) <= 0`. -/
def execBlez (rs : Reg) (imm : Imm) (s : State) : Res State :=
  branchIf (leZero (s.reg rs)) imm s

/-- BLTZ (R158): branch if `signed(x[rs]) < 0`. -/
def execBltz (rs : Reg) (imm : Imm) (s : State) : Res State :=
  branchIf (ltZero (s.reg rs)) imm s

/-- J (R159): `pc <- { (pc + 4)[31:28], addr, 00 }`. -/
def execJ (addr : JumpField) (s : State) : Res State :=
  outsideDelaySlot s (.next (s.transfer (some (s.jumpTarget addr))))

/-- JAL (R160): `x[31] <- (pc + 8)[31:0]`, then the jump of J. -/
def execJal (addr : JumpField) (s : State) : Res State :=
  outsideDelaySlot s (.next ((s.setReg ra s.linkAddress).transfer (some (s.jumpTarget addr))))

/-- JR (R161): `pc <- x[rs]`, unchanged: a misaligned target stops at its fetch (R165). -/
def execJr (rs : Reg) (s : State) : Res State :=
  outsideDelaySlot s (.next (s.transfer (some (s.reg rs))))

/-- JALR (R162): `t <- x[rs]; x[31] <- (pc + 8)[31:0]; pc <- t`. With `rs` 31 the spec gives no
behaviour (R164), checked after the delay slot (R253). -/
def execJalr (rs : Reg) (s : State) : Res State :=
  outsideDelaySlot s
    (if rs = ra then .fault (.jalrSameRegister s.pc)
    else .next ((s.setReg ra s.linkAddress).transfer (some (s.reg rs))))

end Sys2Proof.Machine
end

