-- ==== Sys2Proof/Machine/Cop0.lean ====
section
/-! DEFINITION. Coprocessor 0 moves (45_coprocessor0.md R220 to R223). -/

namespace Sys2Proof.Machine

/-- MFC0 (R220): `x[rt] <- cp0[rd]`. Under CP0_MODEL = opaque it ends the defined execution (R223); under
supplied the value read and the effect of reading are free (log 22). `x[rt]` holds the value at once, and
the instructions that follow within `mfc0Delay` may not use it: DESIGN CHOICE for the hazards that R286
leaves to the supplier (log 32). -/
def execMfc0 (rt rd : Reg) (s : State) : Res State :=
  match s.cfg.cp0Model with
  | .opaqueCp0 => .fault (.cop0 (encode (.mfc0 rt rd)) s.pc)
  | .supplied =>
    writeResult rt (cp0Value s.draws rd s.cp0)
      ((s.accessCp0 (cp0AfterRead s.draws rd s.cp0)).startMfc0Wait rt)

/-- MTC0 (R221): `cp0[rd] <- x[rt]`. Under CP0_MODEL = opaque it ends the defined execution (R223); under
supplied the effect of the write on coprocessor 0 is free (log 22). The field `cp0` changes at once: DESIGN
CHOICE for the hazards that R286 leaves to the supplier, and one that no instruction can tell from a later
change, since what MFC0 reads is free at each access (log 32). -/
def execMtc0 (rt rd : Reg) (s : State) : Res State :=
  match s.cfg.cp0Model with
  | .opaqueCp0 => .fault (.cop0 (encode (.mtc0 rt rd)) s.pc)
  | .supplied => .next (s.accessCp0 (cp0AfterWrite s.draws rd (s.reg rt) s.cp0)).advance

end Sys2Proof.Machine
end

