-- ==== Sys2Proof/Machine/LoadStore.lean ====
section
/-! DEFINITION. Loads and stores (44_load_store.md R200 to R209). -/

namespace Sys2Proof.Machine

/-- LB (R201): `x[rt] <- sext_32(MemRead(ea, 1))`. -/
def execLb (rt rs : Reg) (imm : Imm) (s : State) : Res State :=
  loadTo rt .byte (s.ea rs imm) (fun v => (v.setWidth 8).signExtend 32) s

/-- LBU (R202): `x[rt] <- zext_32(MemRead(ea, 1))`. -/
def execLbu (rt rs : Reg) (imm : Imm) (s : State) : Res State :=
  loadTo rt .byte (s.ea rs imm) (fun v => (v.setWidth 8).setWidth 32) s

/-- LH (R203): `x[rt] <- sext_32(MemRead(ea, 2))`. -/
def execLh (rt rs : Reg) (imm : Imm) (s : State) : Res State :=
  loadTo rt .half (s.ea rs imm) (fun v => (v.setWidth 16).signExtend 32) s

/-- LHU (R204): `x[rt] <- zext_32(MemRead(ea, 2))`. -/
def execLhu (rt rs : Reg) (imm : Imm) (s : State) : Res State :=
  loadTo rt .half (s.ea rs imm) (fun v => (v.setWidth 16).setWidth 32) s

/-- LW (R205): `x[rt] <- MemRead(ea, 4)`. -/
def execLw (rt rs : Reg) (imm : Imm) (s : State) : Res State :=
  loadTo rt .word (s.ea rs imm) (fun v => v) s

/-- SB (R206): `MemWrite(ea, 1, x[rt][7:0])`. -/
def execSb (rt rs : Reg) (imm : Imm) (s : State) : Res State :=
  storeFrom .byte (s.ea rs imm) (s.reg rt) s

/-- SH (R207): `MemWrite(ea, 2, x[rt][15:0])`. -/
def execSh (rt rs : Reg) (imm : Imm) (s : State) : Res State :=
  storeFrom .half (s.ea rs imm) (s.reg rt) s

/-- SW (R208): `MemWrite(ea, 4, x[rt])`. -/
def execSw (rt rs : Reg) (imm : Imm) (s : State) : Res State :=
  storeFrom .word (s.ea rs imm) (s.reg rt) s

end Sys2Proof.Machine
end

