-- ==== Sys2Proof/Machine/Logical.lean ====
section
/-! DEFINITION. Bitwise logical instructions and LUI (41_logical.md R130 to R138). -/

namespace Sys2Proof.Machine

/-- AND (R130): `x[rd] <- x[rs] & x[rt]`. -/
def execAnd (rd rs rt : Reg) (s : State) : Res State :=
  writeResult rd (s.reg rs &&& s.reg rt) s

/-- ANDI (R131): `x[rt] <- x[rs] & zext_32(imm)`. -/
def execAndi (rt rs : Reg) (imm : Imm) (s : State) : Res State :=
  writeResult rt (s.reg rs &&& zeroImm imm) s

/-- LUI (R132): `x[rt] <- { imm, 0x0000 }`; no register is read. -/
def execLui (rt : Reg) (imm : Imm) (s : State) : Res State :=
  writeResult rt (upperImm imm) s

/-- NOR (R133): `x[rd] <- ~(x[rs] | x[rt])`. -/
def execNor (rd rs rt : Reg) (s : State) : Res State :=
  writeResult rd (~~~(s.reg rs ||| s.reg rt)) s

/-- OR (R134): `x[rd] <- x[rs] | x[rt]`. -/
def execOr (rd rs rt : Reg) (s : State) : Res State :=
  writeResult rd (s.reg rs ||| s.reg rt) s

/-- ORI (R135): `x[rt] <- x[rs] | zext_32(imm)`. -/
def execOri (rt rs : Reg) (imm : Imm) (s : State) : Res State :=
  writeResult rt (s.reg rs ||| zeroImm imm) s

/-- XOR (R136): `x[rd] <- x[rs] ^ x[rt]`. -/
def execXor (rd rs rt : Reg) (s : State) : Res State :=
  writeResult rd (s.reg rs ^^^ s.reg rt) s

/-- XORI (R137): `x[rt] <- x[rs] ^ zext_32(imm)`. -/
def execXori (rt rs : Reg) (imm : Imm) (s : State) : Res State :=
  writeResult rt (s.reg rs ^^^ zeroImm imm) s

end Sys2Proof.Machine
end

