-- ==== Sys2Proof/Machine/MulDiv.lean ====
section
/-! DEFINITION. Multiply, divide and the HI/LO moves (43_muldiv_hilo.md R180 to R191). -/

namespace Sys2Proof.Machine

/-- `hi, lo <- p[63:32], p[31:0]` (R186, R187). -/
def State.setProduct (s : State) (p : BitVec 64) : State :=
  s.setHiLo (p.extractLsb' 32 32) (p.extractLsb' 0 32)

/-- The signed quotient under DIV_ROUNDING (R189). -/
def quotient : DivRounding → Int → Int → Int
  | .towardZero, a, b => a.tdiv b

/-- The signed remainder under DIV_ROUNDING (R189). -/
def remainder : DivRounding → Int → Int → Int
  | .towardZero, a, b => a.tmod b

/-- DIV (R180, R189): quotient toward zero to LO, remainder with the sign of the dividend to HI. A zero
divisor draws both (R190); so does `0x80000000 / 0xFFFFFFFF` if DIV_OVERFLOW_RESULT says draw (D13). -/
def execDiv (rs rt : Reg) (s : State) : Res State :=
  if s.reg rt = 0 ∨ (divOverflows (s.reg rs) (s.reg rt) = true ∧ s.cfg.divOverflow = .draw) then
    .next s.drawHiLo.advance
  else
    .next (s.setHiLo (BitVec.ofInt 32 (remainder s.cfg.divRounding (s.reg rs).toInt (s.reg rt).toInt))
      (BitVec.ofInt 32 (quotient s.cfg.divRounding (s.reg rs).toInt (s.reg rt).toInt))).advance

/-- DIVU (R181): quotient to LO and remainder to HI of the unsigned values. A zero divisor draws both
(R190). -/
def execDivu (rs rt : Reg) (s : State) : Res State :=
  if s.reg rt = 0 then .next s.drawHiLo.advance
  else
    .next (s.setHiLo (BitVec.ofNat 32 ((s.reg rs).toNat % (s.reg rt).toNat))
      (BitVec.ofNat 32 ((s.reg rs).toNat / (s.reg rt).toNat))).advance

/-- MFHI (R182): `x[rd] <- hi`. -/
def execMfhi (rd : Reg) (s : State) : Res State :=
  writeResult rd s.hi s

/-- MTHI (R183): `hi <- x[rs]`; LO unchanged. -/
def execMthi (rs : Reg) (s : State) : Res State :=
  .next (s.setHiLo (s.reg rs) s.lo).advance

/-- MFLO (R184): `x[rd] <- lo`. -/
def execMflo (rd : Reg) (s : State) : Res State :=
  writeResult rd s.lo s

/-- MTLO (R185): `lo <- x[rs]`; HI unchanged. -/
def execMtlo (rs : Reg) (s : State) : Res State :=
  .next (s.setHiLo s.hi (s.reg rs)).advance

/-- MULT (R186): the signed 64-bit product to HI and LO. -/
def execMult (rs rt : Reg) (s : State) : Res State :=
  .next (s.setProduct (BitVec.ofInt 64 ((s.reg rs).toInt * (s.reg rt).toInt))).advance

/-- MULTU (R187): the unsigned 64-bit product to HI and LO. -/
def execMultu (rs rt : Reg) (s : State) : Res State :=
  .next (s.setProduct (BitVec.ofNat 64 ((s.reg rs).toNat * (s.reg rt).toNat))).advance

/-- MUL (R188): `x[rd] <- (x[rs] * x[rt])[31:0]`; HI and LO are not written (D25). -/
def execMul (rd rs rt : Reg) (s : State) : Res State :=
  writeResult rd (s.reg rs * s.reg rt) s

end Sys2Proof.Machine
end

