-- ==== Sys2Proof/Machine/Shift.lean ====
section
/-! DEFINITION. NOP and the shift instructions (46_shift_nop.md R230 to R237). -/

namespace Sys2Proof.Machine

/-- NOP (R230): the pc advances, that is its only effect. -/
def execNop (s : State) : Res State :=
  .next s.advance

/-- SLL (R231): `x[rd] <- (x[rt] << shamt)[31:0]`. -/
def execSll (rd rt : Reg) (shamt : Shamt) (s : State) : Res State :=
  writeResult rd (s.reg rt <<< shamt.toNat) s

/-- SLLV (R232): `x[rd] <- (x[rt] << x[rs][4:0])[31:0]`. -/
def execSllv (rd rt rs : Reg) (s : State) : Res State :=
  writeResult rd (s.reg rt <<< (shiftAmount (s.reg rs)).toNat) s

/-- SRL (R233): `x[rd] <- x[rt] >>u shamt`. -/
def execSrl (rd rt : Reg) (shamt : Shamt) (s : State) : Res State :=
  writeResult rd (s.reg rt >>> shamt.toNat) s

/-- SRLV (R234): `x[rd] <- x[rt] >>u x[rs][4:0]`. -/
def execSrlv (rd rt rs : Reg) (s : State) : Res State :=
  writeResult rd (s.reg rt >>> (shiftAmount (s.reg rs)).toNat) s

/-- SRA (R235): `x[rd] <- x[rt] >>s shamt`. -/
def execSra (rd rt : Reg) (shamt : Shamt) (s : State) : Res State :=
  writeResult rd ((s.reg rt).sshiftRight shamt.toNat) s

/-- SRAV (R236): `x[rd] <- x[rt] >>s x[rs][4:0]`. -/
def execSrav (rd rt rs : Reg) (s : State) : Res State :=
  writeResult rd ((s.reg rt).sshiftRight (shiftAmount (s.reg rs)).toNat) s

end Sys2Proof.Machine
end

