-- ==== Sys2Proof/Machine/Step.lean ====
section
/-! DEFINITION. One architectural step of the core (42_control_transfer.md R150), and placing one
instruction where the next step fetches. -/

namespace Sys2Proof.Machine

/-- One step: fetch at `pc`, decode, execute (R150). The end of the step (`pc <- npc` and the rest) is
part of each meaning (`State.advance`, `State.transfer`). A configuration outside the spec's is refused
first (log 23, log 24); a use of a register too soon after MFC0 stops before the execution (R286; log 32). -/
def step (s : State) : Host.Outcome State Fault Refusal :=
  andThen (checkConfig s) fun _ => andThen (fetch s) fun w => andThen (decodeFetched s w) fun i =>
    andThen (checkMfc0Wait s i) fun _ => exec i s.afterFetch

/-- The state with the instruction whose bits are `w` (bits above `nbits` zero) at `pc`, so that the next
step runs it, in the state's byte order: the loading of a program word from outside the machine, which
declares it as program text (log 2). -/
def State.withFetchWord (s : State) (nbits w : Nat) : State :=
  s.placeWord s.pc (BitVec.ofNat 32 (w % 2 ^ nbits))

end Sys2Proof.Machine
end

