-- ==== Sys2Proof/Safety.lean ====
section
/-! DEFINITION. What claims speak about: runs, the end of a run (70_reset_and_hazards.md R290), and the
invariant of the machine. -/

namespace Sys2Proof.Machine

/-- `k` steps lead from `s` to `t`. -/
abbrev RunsTo (k : Nat) (s t : State) : Prop := Host.Core.run Sys2Proof.core k s = .next t

/-- END_OF_RUN (R290): `pc = END_PC` outside a delay slot, at the start of a step and before the fetch. A
convention of the harness: `step` does not look at it (log 26). -/
abbrev State.ended (s : State) : Prop := s.cfg.endPc = some s.pc ∧ s.inDelaySlot = false

/-- A run of `k` steps that ends in `t`, and did not end before (R290). -/
def EndsAt (k : Nat) (s t : State) : Prop :=
  RunsTo k s t ∧ t.ended ∧ ∀ j u, j < k → RunsTo j s u → ¬ u.ended

/-- The invariant of the machine: memory and the program text keep their canonical forms, and outside a
delay slot `npc = pc + 4` (R27). -/
structure State.Inv (s : State) : Prop where
  memory : Memory.wf s.mem
  text : Ascending s.cfg.programText
  sequential : s.inDelaySlot = false → s.npc = s.pc + 4

end Sys2Proof.Machine
end

