-- ==== Sys2Proof/Certificates/Slice0/Obligations.lean ====
section
/-! DEFINITION. The statements for the provers, taken from the numbered rules of spec/.

A statement about an instruction gives its pattern (30_encoding.md R95: the fields as printed, a
don't-care field under its own quantifier) and its whole next state: the record update names every field
that changes, and every other field, memory included, is as before. -/

namespace Sys2Proof.Claims

open Sys2Proof.Machine

/-! ### Shapes of a next state -/

/-- The instruction completes; general register `r` holds `v`, unless it is register 0; every other
register and every byte of memory reads as before; nothing else changes but where the machine goes on.
Where it goes on is `Obligations.EveryInstructionMovesThePc`; that a write to register 0 changes nothing is
`Obligations.RegisterZeroDiscardsWrites`. -/
def Writes (i : Instr) (s : State) (r : Reg) (v : Word) : Prop :=
  ∃ t, exec i s = .next t ∧
    (r ≠ 0 → t.reg r = v) ∧
    (∀ q, q ≠ r → t.reg q = s.reg q) ∧
    (∀ a, byteAt? t.mem a = byteAt? s.mem a) ∧
    t = { s with gpr := t.gpr, pc := t.pc, npc := t.npc, inDelaySlot := t.inDelaySlot }

/-- The instruction completes with these values in HI and LO; nothing else changes but where the machine
goes on. -/
def WritesHiLo (i : Instr) (s : State) (h l : Word) : Prop :=
  ∃ t, exec i s = .next t ∧ t.hi = h ∧ t.lo = l ∧
    t = { s with hi := t.hi, lo := t.lo, pc := t.pc, npc := t.npc, inDelaySlot := t.inDelaySlot }

/-- The instruction completes as a control transfer: the delay slot comes next, then the target; nothing
else changes. -/
def Transfers (i : Instr) (s : State) (target : Word) : Prop :=
  exec i s = .next { s with pc := s.npc, npc := target, inDelaySlot := true }

/-- A control transfer that also writes the return address, `pc + LINK_OFFSET`, to register 31. LINK_OFFSET
is 8 in the spec (R152). -/
def Links (i : Instr) (s : State) (target : Word) : Prop :=
  ∃ t, exec i s = .next t ∧
    (∀ q, t.reg q = if q = 31 then s.pc + s.cfg.linkOffset else s.reg q) ∧
    (∀ a, byteAt? t.mem a = byteAt? s.mem a) ∧
    t = { s with gpr := t.gpr, pc := s.npc, npc := target, inDelaySlot := true }

/-- The instruction completes and stores exactly the bytes `bs` from address `a` on; every other byte
reads as before; nothing else changes but the step to the next instruction. -/
def Stores (i : Instr) (s : State) (a : Word) (bs : List Byte) : Prop :=
  ∃ t, exec i s = .next t ∧
    (∀ x, byteAt? t.mem x =
      if a.toNat ≤ x ∧ x < a.toNat + bs.length then bs[x - a.toNat]? else byteAt? s.mem x) ∧
    t = { s with mem := t.mem, pc := s.npc, npc := s.npc + 4, inDelaySlot := false }

/-! ### Addresses and bytes -/

/-- PC of the Operation lines (R151): the instruction's own address, or, in the alternative of D1, the
address of its delay slot. -/
def pcValue (s : State) : Word := if s.cfg.pcBase = .ownAddress then s.pc else s.pc + 4

/-- BTA: `PC + 4 + { {14{imm[15]}}, imm, 2'b00 }` (R9, R88). -/
def bta (s : State) (imm : Imm) : Word := pcValue s + 4 + (imm.signExtend 30 ++ 0#2)

/-- `{ (PC + 4)[31:28], addr, 2'b00 }` (R89). -/
def jta (s : State) (addr : JumpField) : Word := (pcValue s + 4).extractLsb' 28 4 ++ addr ++ 0#2

/-- The address after the delay slot when a branch is not taken (R150). -/
def fallThrough (s : State) : Word := s.npc + 4

/-- A byte of ram that holds a value. -/
def RamByte (s : State) (a : Word) (b : Byte) : Prop :=
  regionAt s.cfg.memMap a.toNat = some .ram ∧ byteAt? s.mem a.toNat = some b

/-- A byte of memory: ram, or memory shared with other masters. -/
def MemoryByte (s : State) (a : Word) : Prop :=
  regionAt s.cfg.memMap a.toNat = some .ram ∨ regionAt s.cfg.memMap a.toNat = some .shared

/-- A byte of memory that other masters write too. -/
def SharedByte (s : State) (a : Word) : Prop := regionAt s.cfg.memMap a.toNat = some .shared

/-- What the next access reads at an address: the byte that ram holds, or the free byte of shared memory
(log 12). -/
def ReadsAs (s : State) (a : Word) (b : Byte) : Prop :=
  RamByte s a b ∨ (SharedByte s a ∧ b = sharedByte s.draws a.toNat)

/-- The counter of draws after reading `n` bytes: one more if any of them is shared (log 12). -/
def drawsAfter (s : State) (a : Word) (n : Nat) : Nat :=
  if (List.range n).any fun k =>
      decide (regionAt s.cfg.memMap (a + BitVec.ofNat 32 k).toNat = some .shared) then
    s.draws + 1
  else s.draws

/-- As `Writes`, with the counter of draws at `d`. -/
def WritesDrawing (i : Instr) (s : State) (r : Reg) (v : Word) (d : Nat) : Prop :=
  ∃ t, exec i s = .next t ∧
    (r ≠ 0 → t.reg r = v) ∧
    (∀ q, q ≠ r → t.reg q = s.reg q) ∧
    (∀ a, byteAt? t.mem a = byteAt? s.mem a) ∧
    t = { s with gpr := t.gpr, draws := d, pc := t.pc, npc := t.npc, inDelaySlot := t.inDelaySlot }

/-- Two bytes at rising addresses as a halfword (R52). -/
def halfOf : ByteOrder → Byte → Byte → BitVec 16
  | .little, b0, b1 => b1 ++ b0
  | .big, b0, b1 => b0 ++ b1

/-- Four bytes at rising addresses as a word (R52). -/
def wordOf : ByteOrder → Byte → Byte → Byte → Byte → Word
  | .little, b0, b1, b2, b3 => b3 ++ b2 ++ b1 ++ b0
  | .big, b0, b1, b2, b3 => b0 ++ b1 ++ b2 ++ b3

/-- The bytes a list of bytes, lowest first, takes at rising addresses (R52). -/
def inOrder : ByteOrder → List Byte → List Byte
  | .little, bs => bs
  | .big, bs => bs.reverse

/-- The five loads, as instructions with the width of their access (R51). -/
def loads (rt rs : Reg) (imm : Imm) : List (Instr × Nat) :=
  [(.lb rt rs imm, 1), (.lbu rt rs imm, 1), (.lh rt rs imm, 2), (.lhu rt rs imm, 2), (.lw rt rs imm, 4)]

/-- The three stores, as instructions with the width of their access (R51). -/
def stores (rt rs : Reg) (imm : Imm) : List (Instr × Nat) :=
  [(.sb rt rs imm, 1), (.sh rt rs imm, 2), (.sw rt rs imm, 4)]

end Sys2Proof.Claims

open Sys2Proof Sys2Proof.Machine Sys2Proof.Claims

/-! ### Encoding -/

/-- A few words written out in the spec (95_test_vectors.md 1.2, 2.8) decode to the instructions they
stand for, one or two of each family. -/
def Obligations.WrittenWordsDecode : Prop :=
  decodeWord 0x02328020#32 = .ok (.add 16 17 18) ∧
  decodeWord 0x26300005#32 = .ok (.addiu 16 17 5) ∧
  decodeWord 0x3C10FFF7#32 = .ok (.lui 16 0xFFF7) ∧
  decodeWord 0x3A30FFFB#32 = .ok (.xori 16 17 0xFFFB) ∧
  decodeWord 0x1520FFFC#32 = .ok (.bne 9 0 0xFFFC) ∧
  decodeWord 0x0C000007#32 = .ok (.jal 7) ∧
  decodeWord 0x03FFF808#32 = .ok (.jr 31) ∧
  decodeWord 0x72328002#32 = .ok (.mul 16 17 18) ∧
  decodeWord 0x8D28FFFC#32 = .ok (.lw 8 9 0xFFFC) ∧
  decodeWord 0x40886000#32 = .ok (.mtc0 8 12) ∧
  decodeWord 0x02518006#32 = .ok (.srlv 16 17 18) ∧
  decodeWord 0x00000000#32 = .ok .nop

/-- Decode and encode agree: decoding the canonical word of a well-formed instruction gives it back, with
every operand at every value (R95, R99; the canonical don't-care fields are those of R103, a decision of
the spec, D15, log 20). -/
def Obligations.DecodeEncodeRoundTrip : Prop :=
  ∀ i : Instr, i.wellFormed = true → decodeWord (encode i) = .ok i

/-- The pattern table (R95; the rows of AND and XOR are the spec's inference, N1 and N2, those of BNE, SRL
and SRLV follow its repairs C1, C18 and C2, and that rows are disjoint is its own check): a decoded word
matches the row of its instruction; a word that matches a row decodes to an instruction of that row, but for
the all-zero word, which is NOP's and matches SLL's row too; and no other two rows match one word. -/
def Obligations.PatternTableIsTheDecoder : Prop :=
  (∀ w i, decodeWord w = .ok i → i.pattern.matches w) ∧
  (∀ w, ∀ r ∈ Instr.rows, r.pattern.matches w →
    ∃ i, decodeWord w = .ok i ∧ (i.pattern = r.pattern ∨ (w = 0 ∧ i = .nop))) ∧
  (∀ w, ∀ r ∈ Instr.rows, ∀ q ∈ Instr.rows, r.pattern.matches w → q.pattern.matches w →
    r = q ∨ (r = .nop ∧ q = .sll 0 0 0) ∨ (r = .sll 0 0 0 ∧ q = .nop))

/-- An instruction stream decodes word by word in either byte order: four bytes laid out in the order of
R52, whatever follows, give the instruction back and leave the rest. -/
def Obligations.ByteStreamDecodes : Prop :=
  ∀ (o : ByteOrder) (w : Word) (i : Instr) (rest : List Byte), decodeWord w = .ok i →
    decode o (inOrder o [w.extractLsb' 0 8, w.extractLsb' 8 8, w.extractLsb' 16 8, w.extractLsb' 24 8]
      ++ rest) = .ok (i, rest)

/-! ### Reset -/

/-- The state after reset (R33, R281: decisions of the spec, D21): pc is RESET_PC, npc RESET_PC + 4, not in
a delay slot, register 0 zero, memory what the platform has loaded, an argument of the model. That the
parameters stand in the state, where reset finds them, is the model's choice (log 5). The zeros of the other
registers are the model's choice too (log 1) and not stated here, nor is `State.reset`'s empty memory
(log 2). -/
def Obligations.ResetState : Prop :=
  ∀ (c : Config) (m : Memory),
    (State.resetWith c m).pc = c.resetPc ∧ (State.resetWith c m).npc = c.resetPc + 4 ∧
    (State.resetWith c m).inDelaySlot = false ∧ (State.resetWith c m).reg 0 = 0 ∧
    (State.resetWith c m).cfg = c ∧ ∀ a, byteAt? (State.resetWith c m).mem a = byteAt? m a

/-- The invariant holds at reset, in every configuration and with every memory whose lists are in canonical
form, and so at `State.reset`. -/
def Obligations.ResetHasTheInvariant : Prop :=
  (∀ (c : Config) (m : Memory), Ascending c.programText → Memory.wf m → (State.resetWith c m).Inv) ∧
  State.reset.Inv

/-! ### The step -/

/-- A step runs the decoded instruction (R150): where no delays and no interrupts are configured, the four
bytes at an aligned pc read as `b0` to `b3`, from ram or from memory shared with other masters, belong to the
program text and decode to `i`, and no register that `i` uses still waits for its MFC0, the step is `exec i`,
after a draw if a fetched byte was shared (log 12) and with every wait one shorter (log 32). That a fetch
asks for program text is the model's choice (log 13). -/
def Obligations.StepRunsTheDecodedInstruction : Prop :=
  ∀ (s : State) (b0 b1 b2 b3 : Byte) (i : Instr),
    s.cfg.loadDelay = 0 → s.cfg.hiloDelay = 0 → s.cfg.interrupts = .none → s.pc.toNat % 4 = 0 →
    ReadsAs s s.pc b0 → ReadsAs s (s.pc + 1) b1 → ReadsAs s (s.pc + 2) b2 → ReadsAs s (s.pc + 3) b3 →
    (∀ k, k < 4 → s.pc.toNat + k ∈ s.cfg.programText) →
    decodeWord (wordOf s.cfg.byteOrder b0 b1 b2 b3) = .ok i →
    (∀ r ∈ sources i, waitOf s.mfc0Wait r = 0) →
    step s = exec i { s with draws := drawsAfter s s.pc 4, mfc0Wait := shorterWaits s.mfc0Wait } ∧
    ∀ r, waitOf (shorterWaits s.mfc0Wait) r = waitOf s.mfc0Wait r - 1

/-- Where a step stops before it executes anything. By decisions of the spec (R34, R55, R58, R97, R253: D6,
D7, D14, D21, D27): at a misaligned pc, whatever is there; at an aligned pc with an absent byte; at an
unwritten byte of ram; at a word that is no row of the table; a fetch from a device is refused (R58). By the
model's choice: configured delays are refused (log 24), and so are configured interrupts (log 23) and a fetch
outside the program text of the configuration (log 13); a use of a register too soon after MFC0 stops
(log 32); and the places of these checks, and of devices and unwritten bytes, among those of R253 (log 28). -/
def Obligations.StepStopsBeforeExecuting : Prop :=
  ∀ s : State,
    (s.cfg.loadDelay ≠ 0 ∨ s.cfg.hiloDelay ≠ 0 → step s = .refused .delaysUndefined) ∧
    (s.cfg.loadDelay = 0 → s.cfg.hiloDelay = 0 →
      (s.cfg.interrupts = .possible → step s = .refused .interruptsUndefined) ∧
      (s.cfg.interrupts = .none →
        (s.pc.toNat % 4 ≠ 0 → step s = .fault (.misalignedTarget s.pc)) ∧
        (s.pc.toNat % 4 = 0 → (∃ k, k < 4 ∧ regionAt s.cfg.memMap (s.pc.toNat + k) = none) →
          ∃ k, k < 4 ∧ regionAt s.cfg.memMap (s.pc.toNat + k) = none ∧
            step s = .fault (.unmappedAddress (s.pc + BitVec.ofNat 32 k) .fetch)) ∧
        (s.pc.toNat % 4 = 0 → (∀ k, k < 4 → regionAt s.cfg.memMap (s.pc.toNat + k) ≠ none) →
          (∃ k, k < 4 ∧ regionAt s.cfg.memMap (s.pc.toNat + k) = some .device) →
          ∃ k, k < 4 ∧ regionAt s.cfg.memMap (s.pc.toNat + k) = some .device ∧
            step s = .refused (.deviceAccess (s.pc + BitVec.ofNat 32 k) .fetch)) ∧
        (s.pc.toNat % 4 = 0 → (∀ k, k < 4 → MemoryByte s (s.pc + BitVec.ofNat 32 k)) →
          (∃ k, k < 4 ∧ regionAt s.cfg.memMap (s.pc.toNat + k) = some .ram ∧
            byteAt? s.mem (s.pc.toNat + k) = none) →
          ∃ k, k < 4 ∧ regionAt s.cfg.memMap (s.pc.toNat + k) = some .ram ∧
            byteAt? s.mem (s.pc.toNat + k) = none ∧
            step s = .fault (.unwrittenByte (s.pc + BitVec.ofNat 32 k) .fetch)) ∧
        (s.pc.toNat % 4 = 0 → (∀ k, k < 4 → ∃ b, ReadsAs s (s.pc + BitVec.ofNat 32 k) b) →
          (∃ k, k < 4 ∧ s.pc.toNat + k ∉ s.cfg.programText) →
          ∃ k, k < 4 ∧ s.pc.toNat + k ∉ s.cfg.programText ∧
            step s = .refused (.fetchOutsideProgramText (s.pc + BitVec.ofNat 32 k))) ∧
        (∀ w, fetch s = .next w → (∀ r ∈ Instr.rows, ¬ r.pattern.matches w) →
          ∃ e, step s = .fault (.unlistedEncoding w s.pc e)) ∧
        (∀ w i, fetch s = .next w → decodeWord w = .ok i →
          (∃ r ∈ sources i, waitOf s.mfc0Wait r ≠ 0) →
          ∃ r ∈ sources i, waitOf s.mfc0Wait r ≠ 0 ∧ step s = .fault (.mfc0Hazard r s.pc))))

/-- The end of every step (R150): whatever instruction completes, pc takes the old npc, the delay-slot
flag says whether the instruction was a control transfer, which did not itself stand in a delay slot, and
npc goes on by 4 if it was not one. The two-register form is a decision of the spec, D2. -/
def Obligations.EveryInstructionMovesThePc : Prop :=
  ∀ (i : Instr) (s t : State), exec i s = .next t →
    t.pc = s.npc ∧ t.inDelaySlot = isControlTransfer i ∧
    (isControlTransfer i = true → s.inDelaySlot = false) ∧
    (isControlTransfer i = false → t.npc = s.npc + 4)

/-- Every step keeps the invariant: memory and the program text keep their canonical forms, and outside a
delay slot `npc = pc + 4` (R27). -/
def Obligations.EveryStepKeepsTheInvariant : Prop :=
  ∀ s t : State, s.Inv → step s = .next t → t.Inv

/-- The program text is immutable (R31, R63: a decision of the spec, D9): along every run the text stays the
set it was, and the byte that memory stores at each address of it stays the same; in a region shared with
other masters that is the stored byte only, since what a fetch reads there is a fresh free byte (log 12).
By the model's choice: a step that goes on has fetched from the text only (log 13); R63 and D9 do not stop a
fetch outside it. -/
def Obligations.ProgramTextIsImmutable : Prop :=
  (∀ (k : Nat) (s t : State), RunsTo k s t →
    t.cfg.programText = s.cfg.programText ∧
    ∀ x ∈ s.cfg.programText, byteAt? t.mem x = byteAt? s.mem x) ∧
  (∀ s t : State, step s = .next t → ∀ k, k < 4 → s.pc.toNat + k ∈ s.cfg.programText)

/-- The parameters are no state (R31): no step changes the configuration. -/
def Obligations.NoStepChangesTheConfiguration : Prop :=
  ∀ (k : Nat) (s t : State), RunsTo k s t → t.cfg = s.cfg

/-! ### What each instruction leaves alone -/

/-- Only the destination register of R24 changes, for all 54 instructions. -/
def Obligations.OnlyTheDestinationRegisterChanges : Prop :=
  ∀ (i : Instr) (s t : State) (q : Reg), exec i s = .next t → destination i ≠ some q →
    t.reg q = s.reg q

/-- Register 0 discards writes (R22, which the spec marks as its inference): an instruction whose
destination is register 0 changes no general register. -/
def Obligations.RegisterZeroDiscardsWrites : Prop :=
  ∀ (i : Instr) (s t : State), exec i s = .next t → destination i = some 0 →
    ∀ q, t.reg q = s.reg q

/-- An instruction depends on no general register but those R24 says it reads: change any other register
before it, and it completes just the same, with the same register results and everything else equal. -/
def Obligations.OnlySourceRegistersMatter : Prop :=
  ∀ (i : Instr) (s t : State) (r : Reg) (v : Word), r ∉ sources i → exec i s = .next t →
    ∃ u, exec i (s.setReg r v) = .next u ∧
      (∀ q, destination i = some q ∨ q ≠ r → u.reg q = t.reg q) ∧ u = { t with gpr := u.gpr }

/-- HI and LO change only as R25 says: MULT, MULTU, DIV, DIVU write both, MTHI writes HI only, MTLO LO
only, and no other instruction writes either. -/
def Obligations.OnlyTheListedInstructionsWriteHiLo : Prop :=
  ∀ (i : Instr) (s t : State), exec i s = .next t →
    (t.hi ≠ s.hi → (∃ rs rt, i = .mult rs rt ∨ i = .multu rs rt ∨ i = .div rs rt ∨ i = .divu rs rt) ∨
      ∃ rs, i = .mthi rs) ∧
    (t.lo ≠ s.lo → (∃ rs rt, i = .mult rs rt ∨ i = .multu rs rt ∨ i = .div rs rt ∨ i = .divu rs rt) ∨
      ∃ rs, i = .mtlo rs)

/-- Memory changes only by the three stores, and each changes only bytes of its own width from its
effective address on (R51, R200). -/
def Obligations.OnlyStoresWriteMemory : Prop :=
  ∀ (i : Instr) (s t : State), exec i s = .next t →
    (∀ a, byteAt? t.mem a = byteAt? s.mem a) ∨
    ∃ rt rs imm n, (i, n) ∈ stores rt rs imm ∧
      ∀ a, ¬ ((s.ea rs imm).toNat ≤ a ∧ a < (s.ea rs imm).toNat + n) →
        byteAt? t.mem a = byteAt? s.mem a

/-- Coprocessor 0 is reached by exactly two instructions (R29): no other changes its registers or starts a
wait for MFC0 (log 32), and no other's completion or effect depends on them. -/
def Obligations.OnlyTheTwoMovesReachCoprocessor0 : Prop :=
  ∀ (i : Instr) (s t : State) (c : Vector Word 32),
    (∀ rt rd, i ≠ .mfc0 rt rd ∧ i ≠ .mtc0 rt rd) → exec i s = .next t →
    t.cp0 = s.cp0 ∧ t.mfc0Wait = s.mfc0Wait ∧ exec i { s with cp0 := c } = .next { t with cp0 := c }

/-! ### Arithmetic and comparison -/

/-- ADDU, ADDIU, SUBU (R111, R113, R119). -/
def Obligations.UnsignedAddSubResults : Prop :=
  ∀ (s : State) (rs rt rd : Reg) (imm : Imm),
    decodeWord (0b000000#6 ++ rs ++ rt ++ rd ++ 0b00000#5 ++ 0b100001#6) = .ok (.addu rd rs rt) ∧
    Writes (.addu rd rs rt) s rd (s.reg rs + s.reg rt) ∧
    decodeWord (0b001001#6 ++ rs ++ rt ++ imm) = .ok (.addiu rt rs imm) ∧
    Writes (.addiu rt rs imm) s rt (s.reg rs + imm.signExtend 32) ∧
    decodeWord (0b000000#6 ++ rs ++ rt ++ rd ++ 0b00000#5 ++ 0b100011#6) = .ok (.subu rd rs rt) ∧
    Writes (.subu rd rs rt) s rd (s.reg rs - s.reg rt)

/-- ADD, ADDI, SUB under OVERFLOW_POLICY = wrap: the result modulo 2^32, no trap. That they wrap is a
decision of the spec (R120: D10; log 14). -/
def Obligations.SignedAddSubResultsWrap : Prop :=
  ∀ (s : State) (rs rt rd : Reg) (imm : Imm), s.cfg.overflow = .wrap →
    decodeWord (0b000000#6 ++ rs ++ rt ++ rd ++ 0b00000#5 ++ 0b100000#6) = .ok (.add rd rs rt) ∧
    Writes (.add rd rs rt) s rd (s.reg rs + s.reg rt) ∧
    decodeWord (0b001000#6 ++ rs ++ rt ++ imm) = .ok (.addi rt rs imm) ∧
    Writes (.addi rt rs imm) s rt (s.reg rs + imm.signExtend 32) ∧
    decodeWord (0b000000#6 ++ rs ++ rt ++ rd ++ 0b00000#5 ++ 0b100010#6) = .ok (.sub rd rs rt) ∧
    Writes (.sub rd rs rt) s rd (s.reg rs - s.reg rt)

/-- ADD, ADDI, SUB under OVERFLOW_POLICY = refuse (R120, D10; log 14): a fault exactly when the signed
result lies outside -2^31 to 2^31 - 1, and otherwise the signed result itself. -/
def Obligations.SignedAddSubRefuseOverflow : Prop :=
  ∀ (s : State) (rs rt rd : Reg) (imm : Imm), s.cfg.overflow = .refuse →
    (∀ (i : Instr) (d : Reg) (n : Int),
      (i, d, n) ∈ [((.add rd rs rt : Instr), rd, (s.reg rs).toInt + (s.reg rt).toInt),
        (.addi rt rs imm, rt, (s.reg rs).toInt + imm.toInt),
        (.sub rd rs rt, rd, (s.reg rs).toInt - (s.reg rt).toInt)] →
      (n < -2147483648 ∨ 2147483647 < n → exec i s = .fault (.signedOverflow s.pc)) ∧
      (-2147483648 ≤ n → n ≤ 2147483647 → ∃ v : Word, v.toInt = n ∧ Writes i s d v))

/-- SLT, SLTU, SLTI, SLTIU (R114 to R117, R121): exactly 1 or 0, strictly less, signed or unsigned, the
immediate sign-extended in both immediate forms. That SLT is the signed one is marked by the spec as its
inference from SLTU's "Treats operands as unsigned numbers" (R114). -/
def Obligations.SetOnLessThanResults : Prop :=
  ∀ (s : State) (rs rt rd : Reg) (imm : Imm),
    decodeWord (0b000000#6 ++ rs ++ rt ++ rd ++ 0b00000#5 ++ 0b101010#6) = .ok (.slt rd rs rt) ∧
    Writes (.slt rd rs rt) s rd (if (s.reg rs).toInt < (s.reg rt).toInt then 1 else 0) ∧
    decodeWord (0b000000#6 ++ rs ++ rt ++ rd ++ 0b00000#5 ++ 0b101011#6) = .ok (.sltu rd rs rt) ∧
    Writes (.sltu rd rs rt) s rd (if (s.reg rs).toNat < (s.reg rt).toNat then 1 else 0) ∧
    decodeWord (0b001010#6 ++ rs ++ rt ++ imm) = .ok (.slti rt rs imm) ∧
    Writes (.slti rt rs imm) s rt (if (s.reg rs).toInt < imm.toInt then 1 else 0) ∧
    decodeWord (0b001011#6 ++ rs ++ rt ++ imm) = .ok (.sltiu rt rs imm) ∧
    Writes (.sltiu rt rs imm) s rt (if (s.reg rs).toNat < (imm.signExtend 32).toNat then 1 else 0)

/-! ### Logical -/

/-- OR and NOR (R133, R134). -/
def Obligations.OrNorResults : Prop :=
  ∀ (s : State) (rs rt rd : Reg),
    decodeWord (0b000000#6 ++ rs ++ rt ++ rd ++ 0b00000#5 ++ 0b100101#6) = .ok (.or rd rs rt) ∧
    Writes (.or rd rs rt) s rd (s.reg rs ||| s.reg rt) ∧
    decodeWord (0b000000#6 ++ rs ++ rt ++ rd ++ 0b00000#5 ++ 0b100111#6) = .ok (.nor rd rs rt) ∧
    Writes (.nor rd rs rt) s rd (~~~(s.reg rs ||| s.reg rt))

/-- AND and XOR (R130, R136). Their encodings are the spec's inference (91_not_in_source.md N1, N2). -/
def Obligations.AndXorResults : Prop :=
  ∀ (s : State) (rs rt rd : Reg),
    decodeWord (0b000000#6 ++ rs ++ rt ++ rd ++ 0b00000#5 ++ 0b100100#6) = .ok (.and rd rs rt) ∧
    Writes (.and rd rs rt) s rd (s.reg rs &&& s.reg rt) ∧
    decodeWord (0b000000#6 ++ rs ++ rt ++ rd ++ 0b00000#5 ++ 0b100110#6) = .ok (.xor rd rs rt) ∧
    Writes (.xor rd rs rt) s rd (s.reg rs ^^^ s.reg rt)

/-- ANDI, ORI, XORI with the zero-extended immediate (R131, R135, R137). -/
def Obligations.LogicalImmediateResults : Prop :=
  ∀ (s : State) (rs rt : Reg) (imm : Imm),
    decodeWord (0b001100#6 ++ rs ++ rt ++ imm) = .ok (.andi rt rs imm) ∧
    Writes (.andi rt rs imm) s rt (s.reg rs &&& (0#16 ++ imm)) ∧
    decodeWord (0b001101#6 ++ rs ++ rt ++ imm) = .ok (.ori rt rs imm) ∧
    Writes (.ori rt rs imm) s rt (s.reg rs ||| (0#16 ++ imm)) ∧
    decodeWord (0b001110#6 ++ rs ++ rt ++ imm) = .ok (.xori rt rs imm) ∧
    Writes (.xori rt rs imm) s rt (s.reg rs ^^^ (0#16 ++ imm))

/-- LUI (R87, R132): the immediate in the upper half, zeros below, whatever the don't-care `rs` field. -/
def Obligations.LoadUpperImmediateResult : Prop :=
  ∀ (s : State) (x rt : Reg) (imm : Imm),
    decodeWord (0b001111#6 ++ x ++ rt ++ imm) = .ok (.lui rt imm) ∧
    Writes (.lui rt imm) s rt (imm ++ 0#16)

/-! ### Shifts and NOP -/

/-- SLL, SRL, SRA (R231, R233, R235), bit by bit: zeros come in, or copies of bit 31. The all-zero word is
read as NOP, which does what SLL would do there: the spec marks that as its inference (R98, R102, R230), and
reading the word by that name is the model's choice (log 19). -/
def Obligations.ConstantShiftResults : Prop :=
  ∀ (s : State) (x rt rd : Reg) (n : Shamt),
    (0b000000#6 ++ x ++ rt ++ rd ++ n ++ 0b000000#6 ≠ 0#32 →
      decodeWord (0b000000#6 ++ x ++ rt ++ rd ++ n ++ 0b000000#6) = .ok (.sll rd rt n)) ∧
    (0b000000#6 ++ x ++ rt ++ rd ++ n ++ 0b000000#6 = 0#32 →
      decodeWord (0b000000#6 ++ x ++ rt ++ rd ++ n ++ 0b000000#6) = .ok .nop ∧
      exec .nop s = exec (.sll rd rt n) s) ∧
    (∃ v : Word, Writes (.sll rd rt n) s rd v ∧
      ∀ k, k < 32 → v.getLsbD k = (decide (n.toNat ≤ k) && (s.reg rt).getLsbD (k - n.toNat))) ∧
    decodeWord (0b000000#6 ++ x ++ rt ++ rd ++ n ++ 0b000010#6) = .ok (.srl rd rt n) ∧
    (∃ v : Word, Writes (.srl rd rt n) s rd v ∧
      ∀ k, k < 32 → v.getLsbD k = (decide (k + n.toNat < 32) && (s.reg rt).getLsbD (k + n.toNat))) ∧
    decodeWord (0b000000#6 ++ x ++ rt ++ rd ++ n ++ 0b000011#6) = .ok (.sra rd rt n) ∧
    (∃ v : Word, Writes (.sra rd rt n) s rd v ∧
      ∀ k, k < 32 → v.getLsbD k = (s.reg rt).getLsbD (min (k + n.toNat) 31))

/-- SLLV, SRLV, SRAV (R90, R232, R234, R236): as the constant shifts, by the low five bits of `x[rs]`. -/
def Obligations.VariableShiftResults : Prop :=
  ∀ (s : State) (rs rt rd : Reg) (n : Nat), n = (s.reg rs).toNat % 32 →
    decodeWord (0b000000#6 ++ rs ++ rt ++ rd ++ 0b00000#5 ++ 0b000100#6) = .ok (.sllv rd rt rs) ∧
    (∃ v : Word, Writes (.sllv rd rt rs) s rd v ∧
      ∀ k, k < 32 → v.getLsbD k = (decide (n ≤ k) && (s.reg rt).getLsbD (k - n))) ∧
    decodeWord (0b000000#6 ++ rs ++ rt ++ rd ++ 0b00000#5 ++ 0b000110#6) = .ok (.srlv rd rt rs) ∧
    (∃ v : Word, Writes (.srlv rd rt rs) s rd v ∧
      ∀ k, k < 32 → v.getLsbD k = (decide (k + n < 32) && (s.reg rt).getLsbD (k + n))) ∧
    decodeWord (0b000000#6 ++ rs ++ rt ++ rd ++ 0b00000#5 ++ 0b000111#6) = .ok (.srav rd rt rs) ∧
    (∃ v : Word, Writes (.srav rd rt rs) s rd v ∧
      ∀ k, k < 32 → v.getLsbD k = (s.reg rt).getLsbD (min (k + n) 31))

/-- NOP (R230): the all-zero word; its only effect is that the pc advances, in the two-register form of R150
(D2; log 7). -/
def Obligations.NopOnlyAdvances : Prop :=
  decodeWord 0#32 = .ok .nop ∧
  ∀ s : State,
    exec .nop s = .next { s with pc := s.npc, npc := s.npc + 4, inDelaySlot := false }

/-! ### Multiply, divide, HI and LO -/

/-- MULT and MULTU (R186, R187): HI and LO together are the exact product of the signed, or the unsigned,
values. -/
def Obligations.DoubleWordProducts : Prop :=
  ∀ (s : State) (rs rt x : Reg),
    decodeWord (0b000000#6 ++ rs ++ rt ++ x ++ 0b00000#5 ++ 0b011000#6) = .ok (.mult rs rt) ∧
    (∃ h l : Word, WritesHiLo (.mult rs rt) s h l ∧
      (h ++ l).toInt = (s.reg rs).toInt * (s.reg rt).toInt) ∧
    decodeWord (0b000000#6 ++ rs ++ rt ++ x ++ 0b00000#5 ++ 0b011001#6) = .ok (.multu rs rt) ∧
    (∃ h l : Word, WritesHiLo (.multu rs rt) s h l ∧
      (h ++ l).toNat = (s.reg rs).toNat * (s.reg rt).toNat)

/-- MUL (R188): the low 32 bits of the product, the same for signed and unsigned operands. That HI and LO
are left alone is a decision of the spec (D25; log 25). -/
def Obligations.SingleWordProduct : Prop :=
  ∀ (s : State) (rs rt rd : Reg),
    decodeWord (0b011100#6 ++ rs ++ rt ++ rd ++ 0b00000#5 ++ 0b000010#6) = .ok (.mul rd rs rt) ∧
    Writes (.mul rd rs rt) s rd (BitVec.ofNat 32 ((s.reg rs).toNat * (s.reg rt).toNat)) ∧
    Writes (.mul rd rs rt) s rd (BitVec.ofInt 32 ((s.reg rs).toInt * (s.reg rt).toInt))

/-- DIV with a divisor other than zero (R180, R189: decisions of the spec, D11, D13; log 15): the quotient
is truncated toward zero and the remainder has the sign of the dividend, but for the one quotient that
does not fit, which is fixed or a draw by DIV_OVERFLOW_RESULT. -/
def Obligations.SignedDivisionResults : Prop :=
  ∀ (s : State) (rs rt x : Reg), s.reg rt ≠ 0 →
    decodeWord (0b000000#6 ++ rs ++ rt ++ x ++ 0b00000#5 ++ 0b011010#6) = .ok (.div rs rt) ∧
    (¬ (s.reg rs = 0x80000000#32 ∧ s.reg rt = 0xFFFFFFFF#32) →
      ∃ h l : Word, WritesHiLo (.div rs rt) s h l ∧
        (s.reg rs).toInt = l.toInt * (s.reg rt).toInt + h.toInt ∧
        h.toInt.natAbs < (s.reg rt).toInt.natAbs ∧
        (0 ≤ (s.reg rs).toInt → 0 ≤ h.toInt) ∧ ((s.reg rs).toInt ≤ 0 → h.toInt ≤ 0)) ∧
    (s.reg rs = 0x80000000#32 → s.reg rt = 0xFFFFFFFF#32 →
      (s.cfg.divOverflow = .fixed → WritesHiLo (.div rs rt) s 0 0x80000000#32) ∧
      (s.cfg.divOverflow = .draw → exec (.div rs rt) s = .next { s with
        hi := drawnHi s.cfg.div0Result s.draws, lo := drawnLo s.cfg.div0Result s.draws,
        draws := s.draws + 1,
        pc := s.npc, npc := s.npc + 4, inDelaySlot := false }))

/-- DIVU with a divisor other than zero (R181): quotient and remainder of the unsigned values. -/
def Obligations.UnsignedDivisionResults : Prop :=
  ∀ (s : State) (rs rt x : Reg), s.reg rt ≠ 0 →
    decodeWord (0b000000#6 ++ rs ++ rt ++ x ++ 0b00000#5 ++ 0b011011#6) = .ok (.divu rs rt) ∧
    ∃ h l : Word, WritesHiLo (.divu rs rt) s h l ∧
      (s.reg rs).toNat = l.toNat * (s.reg rt).toNat + h.toNat ∧ h.toNat < (s.reg rt).toNat

/-- DIV and DIVU by zero (R190: a decision of the spec, D12; log 16): both complete, HI and LO are free
values, and nothing else changes but the counter of draws and the step to the next instruction. -/
def Obligations.DivisionByZeroDraws : Prop :=
  ∀ (s : State) (rs rt : Reg), s.reg rt = 0 →
    ∀ i ∈ [(.div rs rt : Instr), .divu rs rt],
      exec i s = .next { s with
        hi := drawnHi s.cfg.div0Result s.draws, lo := drawnLo s.cfg.div0Result s.draws,
        draws := s.draws + 1,
        pc := s.npc, npc := s.npc + 4, inDelaySlot := false }

/-- MFHI and MFLO (R182, R184), whatever their don't-care fields. -/
def Obligations.MovesFromHiLo : Prop :=
  ∀ (s : State) (r x y : Reg),
    decodeWord (0b000000#6 ++ x ++ y ++ r ++ 0b00000#5 ++ 0b010000#6) = .ok (.mfhi r) ∧
    Writes (.mfhi r) s r s.hi ∧
    decodeWord (0b000000#6 ++ x ++ y ++ r ++ 0b00000#5 ++ 0b010010#6) = .ok (.mflo r) ∧
    Writes (.mflo r) s r s.lo

/-- MTHI and MTLO (R183, R185), whatever their don't-care fields. That each leaves the other register alone
is marked by the spec as its inference from the Operation line. -/
def Obligations.MovesToHiLo : Prop :=
  ∀ (s : State) (r x y : Reg),
    decodeWord (0b000000#6 ++ r ++ x ++ y ++ 0b00000#5 ++ 0b010001#6) = .ok (.mthi r) ∧
    WritesHiLo (.mthi r) s (s.reg r) s.lo ∧
    decodeWord (0b000000#6 ++ r ++ x ++ y ++ 0b00000#5 ++ 0b010011#6) = .ok (.mtlo r) ∧
    WritesHiLo (.mtlo r) s s.hi (s.reg r)

/-! ### Control transfer -/

/-- BEQ and BNE outside a delay slot (R153, R154, R167). What PC denotes and the two-register form are
decisions of the spec (D1, D2; log 6, log 7). -/
def Obligations.EqualityBranches : Prop :=
  ∀ (s : State) (rs rt : Reg) (imm : Imm), s.inDelaySlot = false →
    decodeWord (0b000100#6 ++ rs ++ rt ++ imm) = .ok (.beq rs rt imm) ∧
    Transfers (.beq rs rt imm) s (if s.reg rs = s.reg rt then bta s imm else fallThrough s) ∧
    decodeWord (0b000101#6 ++ rs ++ rt ++ imm) = .ok (.bne rs rt imm) ∧
    Transfers (.bne rs rt imm) s (if s.reg rs = s.reg rt then fallThrough s else bta s imm)

/-- BGEZ, BGTZ, BLEZ, BLTZ outside a delay slot (R155 to R158, R167): by the sign bit and by zero. The
target rests on D1, D2 (log 6, log 7). -/
def Obligations.SignBranches : Prop :=
  ∀ (s : State) (rs x : Reg) (imm : Imm), s.inDelaySlot = false →
    decodeWord (0b000001#6 ++ rs ++ 0b00001#5 ++ imm) = .ok (.bgez rs imm) ∧
    Transfers (.bgez rs imm) s (if (s.reg rs).getLsbD 31 then fallThrough s else bta s imm) ∧
    decodeWord (0b000111#6 ++ rs ++ x ++ imm) = .ok (.bgtz rs imm) ∧
    Transfers (.bgtz rs imm) s
      (if (s.reg rs).getLsbD 31 ∨ s.reg rs = 0 then fallThrough s else bta s imm) ∧
    decodeWord (0b000110#6 ++ rs ++ x ++ imm) = .ok (.blez rs imm) ∧
    Transfers (.blez rs imm) s
      (if (s.reg rs).getLsbD 31 ∨ s.reg rs = 0 then bta s imm else fallThrough s) ∧
    decodeWord (0b000001#6 ++ rs ++ 0b00000#5 ++ imm) = .ok (.bltz rs imm) ∧
    Transfers (.bltz rs imm) s (if (s.reg rs).getLsbD 31 then bta s imm else fallThrough s)

/-- J and JAL outside a delay slot (R89, R152, R159, R160). The region rests on D1, the two-register form
on D2 (log 6, log 7). -/
def Obligations.RegionJumps : Prop :=
  ∀ (s : State) (addr : JumpField), s.inDelaySlot = false →
    decodeWord (0b000010#6 ++ addr) = .ok (.j addr) ∧ Transfers (.j addr) s (jta s addr) ∧
    decodeWord (0b000011#6 ++ addr) = .ok (.jal addr) ∧ Links (.jal addr) s (jta s addr)

/-- JR, and JALR with `rs` other than 31, outside a delay slot (R161, R162): the target is the register as
it stands, JALR's link register is 31 whatever its `rd` field (R23). The two-register form is D2 (log 7);
that JALR's `rd` field does not name the link register is the spec's reading (log 18). -/
def Obligations.RegisterJumps : Prop :=
  ∀ (s : State) (rs x y : Reg), s.inDelaySlot = false →
    decodeWord (0b000000#6 ++ rs ++ x ++ y ++ 0b00000#5 ++ 0b001000#6) = .ok (.jr rs) ∧
    Transfers (.jr rs) s (s.reg rs) ∧
    decodeWord (0b000000#6 ++ rs ++ x ++ y ++ 0b00000#5 ++ 0b001001#6) = .ok (.jalr rs) ∧
    (rs ≠ 31 → Links (.jalr rs) s (s.reg rs))

/-- A control transfer in a delay slot stops, all ten of them, before JALR's own check (R163, R253:
decisions of the spec, D3, D27; log 8); and JALR with `rs` 31 stops outside one (R164, D16; log 21). -/
def Obligations.ControlTransferInDelaySlotStops : Prop :=
  (∀ (i : Instr) (s : State), isControlTransfer i = true → s.inDelaySlot = true →
    exec i s = .fault (.controlTransferInDelaySlot s.pc)) ∧
  (∀ s : State, s.inDelaySlot = false → exec (.jalr 31) s = .fault (.jalrSameRegister s.pc))

/-- Targets of branches and of J and JAL are multiples of 4 when pc is (R165). -/
def Obligations.BranchAndJumpTargetsAreAligned : Prop :=
  ∀ (i : Instr) (s t : State), isControlTransfer i = true → (∀ rs, i ≠ .jr rs ∧ i ≠ .jalr rs) →
    s.pc.toNat % 4 = 0 → s.npc.toNat % 4 = 0 → exec i s = .next t →
    t.pc.toNat % 4 = 0 ∧ t.npc.toNat % 4 = 0

/-- A call returns to the instruction after its delay slot (R152): JAL or JALR, then a delay-slot
instruction that leaves register 31 alone, then `jr $ra`, goes on at the call's address plus LINK_OFFSET,
which is plus 8 where LINK_OFFSET is the spec's. -/
def Obligations.CallReturnsAfterItsDelaySlot : Prop :=
  ∀ (c d : Instr) (s t u v : State), (∃ addr, c = .jal addr) ∨ (∃ rs, c = .jalr rs) →
    exec c s = .next t → destination d ≠ some 31 → exec d t = .next u → exec (.jr 31) u = .next v →
    t.pc = s.npc ∧ v.npc = s.pc + s.cfg.linkOffset ∧ (s.cfg.linkOffset = 8 → v.npc = s.pc + 8)

/-! ### Loads and stores -/

/-- The effective address (R57, R200): base plus signed displacement, modulo 2^32, for every base and
displacement. -/
def Obligations.EffectiveAddressIsModular : Prop :=
  ∀ (s : State) (rs : Reg) (imm : Imm),
    ((s.ea rs imm).toNat : Int) = ((s.reg rs).toNat + imm.toInt) % 4294967296

/-- LB and LBU (R201, R202) from a byte of ram that holds a value: sign- or zero-extended. -/
def Obligations.LoadByteResults : Prop :=
  ∀ (s : State) (rt rs : Reg) (imm : Imm),
    decodeWord (0b100000#6 ++ rs ++ rt ++ imm) = .ok (.lb rt rs imm) ∧
    decodeWord (0b100100#6 ++ rs ++ rt ++ imm) = .ok (.lbu rt rs imm) ∧
    ∀ b, RamByte s (s.ea rs imm) b →
      Writes (.lb rt rs imm) s rt (b.signExtend 32) ∧ Writes (.lbu rt rs imm) s rt (b.setWidth 32)

/-- LH and LHU (R203, R204) from an even address of ram whose two bytes hold values, in either byte order
(R52: D4; log 9). -/
def Obligations.LoadHalfwordResults : Prop :=
  ∀ (s : State) (rt rs : Reg) (imm : Imm),
    decodeWord (0b100001#6 ++ rs ++ rt ++ imm) = .ok (.lh rt rs imm) ∧
    decodeWord (0b100101#6 ++ rs ++ rt ++ imm) = .ok (.lhu rt rs imm) ∧
    ∀ b0 b1, (s.ea rs imm).toNat % 2 = 0 → RamByte s (s.ea rs imm) b0 →
      RamByte s (s.ea rs imm + 1) b1 →
      Writes (.lh rt rs imm) s rt ((halfOf s.cfg.byteOrder b0 b1).signExtend 32) ∧
      Writes (.lhu rt rs imm) s rt ((halfOf s.cfg.byteOrder b0 b1).setWidth 32)

/-- LW (R205) from a multiple of 4 in ram whose four bytes hold values, in either byte order (R52: D4;
log 9). -/
def Obligations.LoadWordResult : Prop :=
  ∀ (s : State) (rt rs : Reg) (imm : Imm),
    decodeWord (0b100011#6 ++ rs ++ rt ++ imm) = .ok (.lw rt rs imm) ∧
    ∀ b0 b1 b2 b3, (s.ea rs imm).toNat % 4 = 0 → RamByte s (s.ea rs imm) b0 →
      RamByte s (s.ea rs imm + 1) b1 → RamByte s (s.ea rs imm + 2) b2 → RamByte s (s.ea rs imm + 3) b3 →
      Writes (.lw rt rs imm) s rt (wordOf s.cfg.byteOrder b0 b1 b2 b3)

/-- The five loads from ram, from memory shared with other masters, and from both in one access (R60, U19; the
form of the free bytes is the model's, log 12): LB and LH sign-extend what they read, LBU and LHU
zero-extend it, LW joins four bytes, in either byte order (R52: D4; log 9), and the counter of draws moves if
a byte was shared. -/
def Obligations.LoadsFromSharedMemoryComplete : Prop :=
  ∀ (s : State) (rt rs : Reg) (imm : Imm),
    (∀ b, ReadsAs s (s.ea rs imm) b →
      WritesDrawing (.lb rt rs imm) s rt (b.signExtend 32) (drawsAfter s (s.ea rs imm) 1) ∧
      WritesDrawing (.lbu rt rs imm) s rt (b.setWidth 32) (drawsAfter s (s.ea rs imm) 1)) ∧
    (∀ b0 b1, (s.ea rs imm).toNat % 2 = 0 → ReadsAs s (s.ea rs imm) b0 →
      ReadsAs s (s.ea rs imm + 1) b1 →
      WritesDrawing (.lh rt rs imm) s rt ((halfOf s.cfg.byteOrder b0 b1).signExtend 32)
        (drawsAfter s (s.ea rs imm) 2) ∧
      WritesDrawing (.lhu rt rs imm) s rt ((halfOf s.cfg.byteOrder b0 b1).setWidth 32)
        (drawsAfter s (s.ea rs imm) 2)) ∧
    (∀ b0 b1 b2 b3, (s.ea rs imm).toNat % 4 = 0 → ReadsAs s (s.ea rs imm) b0 →
      ReadsAs s (s.ea rs imm + 1) b1 → ReadsAs s (s.ea rs imm + 2) b2 →
      ReadsAs s (s.ea rs imm + 3) b3 →
      WritesDrawing (.lw rt rs imm) s rt (wordOf s.cfg.byteOrder b0 b1 b2 b3)
        (drawsAfter s (s.ea rs imm) 4))

/-- A load into register 0 performs its access (R22, R66): it completes exactly when the same load into
any other register does. -/
def Obligations.LoadIntoZeroPerformsItsAccess : Prop :=
  ∀ (s : State) (rt rs : Reg) (imm : Imm) (k : Nat) (i j : Instr) (n : Nat),
    (loads 0 rs imm)[k]? = some (i, n) → (loads rt rs imm)[k]? = some (j, n) →
    ((∃ t, exec i s = .next t) ↔ ∃ t, exec j s = .next t) ∧
    ∀ t, exec i s = .next t → ∀ q, t.reg q = s.reg q

/-- SB (R206): the low byte of `x[rt]` at the effective address, wherever that is memory and not program
text. -/
def Obligations.StoreByteResult : Prop :=
  ∀ (s : State) (rt rs : Reg) (imm : Imm),
    decodeWord (0b101000#6 ++ rs ++ rt ++ imm) = .ok (.sb rt rs imm) ∧
    (MemoryByte s (s.ea rs imm) → (s.ea rs imm).toNat ∉ s.cfg.programText →
      Stores (.sb rt rs imm) s (s.ea rs imm) [(s.reg rt).extractLsb' 0 8])

/-- SH (R207): the low two bytes of `x[rt]` at an even effective address, in the byte order of R52 (D4;
log 9), wherever that is memory and not program text. -/
def Obligations.StoreHalfwordResult : Prop :=
  ∀ (s : State) (rt rs : Reg) (imm : Imm),
    decodeWord (0b101001#6 ++ rs ++ rt ++ imm) = .ok (.sh rt rs imm) ∧
    ((s.ea rs imm).toNat % 2 = 0 → MemoryByte s (s.ea rs imm) → MemoryByte s (s.ea rs imm + 1) →
      (∀ k, k < 2 → (s.ea rs imm).toNat + k ∉ s.cfg.programText) →
      Stores (.sh rt rs imm) s (s.ea rs imm)
        (inOrder s.cfg.byteOrder [(s.reg rt).extractLsb' 0 8, (s.reg rt).extractLsb' 8 8]))

/-- SW (R208): the four bytes of `x[rt]` at an effective address that is a multiple of 4, in the byte
order of R52 (D4; log 9), wherever that is memory and not program text. -/
def Obligations.StoreWordResult : Prop :=
  ∀ (s : State) (rt rs : Reg) (imm : Imm),
    decodeWord (0b101011#6 ++ rs ++ rt ++ imm) = .ok (.sw rt rs imm) ∧
    ((s.ea rs imm).toNat % 4 = 0 → (∀ k, k < 4 → MemoryByte s (s.ea rs imm + BitVec.ofNat 32 k)) →
      (∀ k, k < 4 → (s.ea rs imm).toNat + k ∉ s.cfg.programText) →
      Stores (.sw rt rs imm) s (s.ea rs imm)
        (inOrder s.cfg.byteOrder [(s.reg rt).extractLsb' 0 8, (s.reg rt).extractLsb' 8 8,
          (s.reg rt).extractLsb' 16 8, (s.reg rt).extractLsb' 24 8]))

/-- A load sees the latest store (R60), in either byte order: after SW to ram, LW of the same address gives
the word back, and LBU of its byte `k` gives the byte R52 places there (R53). -/
def Obligations.LoadSeesTheLatestStore : Prop :=
  ∀ (s t : State) (rt rs base d : Reg) (imm off : Imm) (k : Nat), k < 4 →
    (∀ j, j < 4 → regionAt s.cfg.memMap ((s.ea rs imm).toNat + j) = some .ram) →
    exec (.sw rt rs imm) s = .next t →
    (t.ea base off = s.ea rs imm → Writes (.lw d base off) t d (s.reg rt)) ∧
    (t.ea base off = s.ea rs imm + BitVec.ofNat 32 k →
      Writes (.lbu d base off) t d
        (((s.reg rt).extractLsb' (8 * if s.cfg.byteOrder = .little then k else 3 - k) 8).setWidth 32))

/-- A misaligned load or store stops and touches nothing, whatever the map and the text say (R54, R209,
R253: decisions of the spec, D5, D27; log 10). -/
def Obligations.MisalignedAccessesStop : Prop :=
  ∀ (s : State) (rt rs : Reg) (imm : Imm),
    ((s.ea rs imm).toNat % 2 ≠ 0 →
      exec (.lh rt rs imm) s = .fault (.misaligned (s.ea rs imm) .half .load) ∧
      exec (.lhu rt rs imm) s = .fault (.misaligned (s.ea rs imm) .half .load) ∧
      exec (.sh rt rs imm) s = .fault (.misaligned (s.ea rs imm) .half .store)) ∧
    ((s.ea rs imm).toNat % 4 ≠ 0 →
      exec (.lw rt rs imm) s = .fault (.misaligned (s.ea rs imm) .word .load) ∧
      exec (.sw rt rs imm) s = .fault (.misaligned (s.ea rs imm) .word .store))

/-- An aligned access with a byte in no region of MEM_MAP stops at such a byte; with no absent byte and one
of a device, it is refused (R58, R209: D7; log 11). -/
def Obligations.AccessesOutsideMemoryStop : Prop :=
  ∀ (s : State) (rt rs : Reg) (imm : Imm) (i : Instr) (n : Nat) (kind : AccessKind),
    (kind = .load ∧ (i, n) ∈ loads rt rs imm) ∨ (kind = .store ∧ (i, n) ∈ stores rt rs imm) →
    (s.ea rs imm).toNat % n = 0 →
    ((∃ k, k < n ∧ regionAt s.cfg.memMap ((s.ea rs imm).toNat + k) = none) →
      ∃ k, k < n ∧ regionAt s.cfg.memMap ((s.ea rs imm).toNat + k) = none ∧
        exec i s = .fault (.unmappedAddress (s.ea rs imm + BitVec.ofNat 32 k) kind)) ∧
    ((∀ k, k < n → regionAt s.cfg.memMap ((s.ea rs imm).toNat + k) ≠ none) →
      (∃ k, k < n ∧ regionAt s.cfg.memMap ((s.ea rs imm).toNat + k) = some .device) →
      ∃ k, k < n ∧ regionAt s.cfg.memMap ((s.ea rs imm).toNat + k) = some .device ∧
        exec i s = .refused (.deviceAccess (s.ea rs imm + BitVec.ofNat 32 k) kind))

/-- A store of which a byte lies in the program text stops, before the run fetches there or after (R63, R209,
R287: D9); a load that meets a byte of ram that nothing has written stops at the first such byte (R34: D21;
log 4). -/
def Obligations.StoresIntoTextAndUnwrittenReadsStop : Prop :=
  (∀ (s : State) (rt rs : Reg) (imm : Imm) (i : Instr) (n : Nat), (i, n) ∈ stores rt rs imm →
    (s.ea rs imm).toNat % n = 0 → (∀ k, k < n → MemoryByte s (s.ea rs imm + BitVec.ofNat 32 k)) →
    (∃ k, k < n ∧ (s.ea rs imm).toNat + k ∈ s.cfg.programText) →
    exec i s = .fault (.storeIntoProgramText (s.ea rs imm))) ∧
  (∀ (s : State) (rt rs : Reg) (imm : Imm) (i : Instr) (n k : Nat), (i, n) ∈ loads rt rs imm →
    (s.ea rs imm).toNat % n = 0 →
    (∀ j, j < n → MemoryByte s (s.ea rs imm + BitVec.ofNat 32 j)) →
    k < n → regionAt s.cfg.memMap ((s.ea rs imm).toNat + k) = some .ram →
    byteAt? s.mem ((s.ea rs imm).toNat + k) = none →
    (∀ j, j < k → regionAt s.cfg.memMap ((s.ea rs imm).toNat + j) = some .shared ∨
      byteAt? s.mem ((s.ea rs imm).toNat + j) ≠ none) →
    exec i s = .fault (.unwrittenByte (s.ea rs imm + BitVec.ofNat 32 k) .load))

/-! ### Coprocessor 0 -/

/-- MFC0 and MTC0 under CP0_MODEL = opaque stop (R223: a decision of the spec, D17; log 22). -/
def Obligations.OpaqueCoprocessor0Stops : Prop :=
  ∀ (s : State) (rt rd : Reg), s.cfg.cp0Model = .opaqueCp0 →
    exec (.mfc0 rt rd) s =
      .fault (.cop0 (0b010000#6 ++ 0b00000#5 ++ rt ++ rd ++ 0b00000#5 ++ 0b000000#6) s.pc) ∧
    exec (.mtc0 rt rd) s =
      .fault (.cop0 (0b010000#6 ++ 0b00100#5 ++ rt ++ rd ++ 0b00000#5 ++ 0b000000#6) s.pc)

/-- MFC0 and MTC0 under CP0_MODEL = supplied, which R223 says lies outside the spec, complete: MFC0 writes the
supplied value to `rt`, MTC0 hands `x[rt]` to the supplied write (the moves of R220, R221). The frame is the
model's choice, an unsafe one (log 22): R223 warns that a write may change how every later instruction
behaves, and here nothing but coprocessor 0, the counter of draws and the step to the next instruction
changes beside the move. So is the form of the hazards of R286: MFC0 alone starts a wait, on `rt` unless that
is register 0 (log 32). The supplied functions are free (log 22). -/
def Obligations.SuppliedCoprocessor0Moves : Prop :=
  ∀ (s : State) (rt rd : Reg), s.cfg.cp0Model = .supplied →
    decodeWord (0b010000#6 ++ 0b00000#5 ++ rt ++ rd ++ 0b00000#5 ++ 0b000000#6) = .ok (.mfc0 rt rd) ∧
    (∃ t, exec (.mfc0 rt rd) s = .next t ∧
      (∀ q, t.reg q = if q = 0 then 0 else if q = rt then cp0Value s.draws rd s.cp0 else s.reg q) ∧
      (∀ q, waitOf t.mfc0Wait q =
        if q = rt then (if rt = 0 then 0 else s.cfg.mfc0Delay) else waitOf s.mfc0Wait q) ∧
      t = { s with gpr := t.gpr, cp0 := cp0AfterRead s.draws rd s.cp0, mfc0Wait := t.mfc0Wait,
                   draws := s.draws + 1, pc := s.npc, npc := s.npc + 4, inDelaySlot := false }) ∧
    decodeWord (0b010000#6 ++ 0b00100#5 ++ rt ++ rd ++ 0b00000#5 ++ 0b000000#6) = .ok (.mtc0 rt rd) ∧
    exec (.mtc0 rt rd) s = .next { s with
      cp0 := cp0AfterWrite s.draws rd (s.reg rt) s.cp0, draws := s.draws + 1,
      pc := s.npc, npc := s.npc + 4, inDelaySlot := false }
end

