-- ==== Sys2Proof/Laws/Encoding.lean ====
section
/-! SUPPORT. The fields of a word built from fields, and a word from its fields (30_encoding.md R81 to R83);
the masks of the pattern table as conditions on fields (R95). -/

namespace Sys2Proof

/-! ### Fields of a word built from fields -/

@[simp] theorem opcode_rType (op : BitVec 6) (rs rt rd : Reg) (shamt : Shamt) (fn : BitVec 6) :
    opcode (rType op rs rt rd shamt fn) = op := by
  apply BitVec.eq_of_getLsbD_eq
  intro i hi
  simp only [opcode, rType, BitVec.getLsbD_extractLsb', BitVec.getLsbD_append, hi, decide_true,
    Bool.true_and]
  simp (disch := omega) only [if_neg]
  congr 1
  omega

@[simp] theorem fieldRs_rType (op : BitVec 6) (rs rt rd : Reg) (shamt : Shamt) (fn : BitVec 6) :
    fieldRs (rType op rs rt rd shamt fn) = rs := by
  apply BitVec.eq_of_getLsbD_eq
  intro i hi
  simp only [fieldRs, rType, BitVec.getLsbD_extractLsb', BitVec.getLsbD_append, hi, decide_true,
    Bool.true_and]
  simp (disch := omega) only [if_neg, if_pos]
  congr 1
  omega

@[simp] theorem fieldRt_rType (op : BitVec 6) (rs rt rd : Reg) (shamt : Shamt) (fn : BitVec 6) :
    fieldRt (rType op rs rt rd shamt fn) = rt := by
  apply BitVec.eq_of_getLsbD_eq
  intro i hi
  simp only [fieldRt, rType, BitVec.getLsbD_extractLsb', BitVec.getLsbD_append, hi, decide_true,
    Bool.true_and]
  simp (disch := omega) only [if_neg, if_pos]
  congr 1
  omega

@[simp] theorem fieldRd_rType (op : BitVec 6) (rs rt rd : Reg) (shamt : Shamt) (fn : BitVec 6) :
    fieldRd (rType op rs rt rd shamt fn) = rd := by
  apply BitVec.eq_of_getLsbD_eq
  intro i hi
  simp only [fieldRd, rType, BitVec.getLsbD_extractLsb', BitVec.getLsbD_append, hi, decide_true,
    Bool.true_and]
  simp (disch := omega) only [if_neg, if_pos]
  congr 1
  omega

@[simp] theorem fieldShamt_rType (op : BitVec 6) (rs rt rd : Reg) (shamt : Shamt) (fn : BitVec 6) :
    fieldShamt (rType op rs rt rd shamt fn) = shamt := by
  apply BitVec.eq_of_getLsbD_eq
  intro i hi
  simp only [fieldShamt, rType, BitVec.getLsbD_extractLsb', BitVec.getLsbD_append, hi, decide_true,
    Bool.true_and]
  simp (disch := omega) only [if_neg, if_pos]
  congr 1
  omega

@[simp] theorem funct_rType (op : BitVec 6) (rs rt rd : Reg) (shamt : Shamt) (fn : BitVec 6) :
    funct (rType op rs rt rd shamt fn) = fn := by
  apply BitVec.eq_of_getLsbD_eq
  intro i hi
  simp only [funct, rType, BitVec.getLsbD_extractLsb', BitVec.getLsbD_append, hi, decide_true,
    Bool.true_and]
  simp (disch := omega) only [if_neg, if_pos]
  rw [Nat.zero_add]

@[simp] theorem opcode_iType (op : BitVec 6) (rs rt : Reg) (imm : Imm) :
    opcode (iType op rs rt imm) = op := by
  apply BitVec.eq_of_getLsbD_eq
  intro i hi
  simp only [opcode, iType, BitVec.getLsbD_extractLsb', BitVec.getLsbD_append, hi, decide_true,
    Bool.true_and]
  simp (disch := omega) only [if_neg]
  congr 1
  omega

@[simp] theorem fieldRs_iType (op : BitVec 6) (rs rt : Reg) (imm : Imm) :
    fieldRs (iType op rs rt imm) = rs := by
  apply BitVec.eq_of_getLsbD_eq
  intro i hi
  simp only [fieldRs, iType, BitVec.getLsbD_extractLsb', BitVec.getLsbD_append, hi, decide_true,
    Bool.true_and]
  simp (disch := omega) only [if_neg, if_pos]
  congr 1
  omega

@[simp] theorem fieldRt_iType (op : BitVec 6) (rs rt : Reg) (imm : Imm) :
    fieldRt (iType op rs rt imm) = rt := by
  apply BitVec.eq_of_getLsbD_eq
  intro i hi
  simp only [fieldRt, iType, BitVec.getLsbD_extractLsb', BitVec.getLsbD_append, hi, decide_true,
    Bool.true_and]
  simp (disch := omega) only [if_neg, if_pos]
  congr 1
  omega

@[simp] theorem fieldImm_iType (op : BitVec 6) (rs rt : Reg) (imm : Imm) :
    fieldImm (iType op rs rt imm) = imm := by
  apply BitVec.eq_of_getLsbD_eq
  intro i hi
  simp only [fieldImm, iType, BitVec.getLsbD_extractLsb', BitVec.getLsbD_append, hi, decide_true,
    Bool.true_and]
  simp (disch := omega) only [if_neg, if_pos]
  rw [Nat.zero_add]

@[simp] theorem opcode_jType (op : BitVec 6) (addr : JumpField) :
    opcode (jType op addr) = op := by
  apply BitVec.eq_of_getLsbD_eq
  intro i hi
  simp only [opcode, jType, BitVec.getLsbD_extractLsb', BitVec.getLsbD_append, hi, decide_true,
    Bool.true_and]
  simp (disch := omega) only [if_neg]
  congr 1
  omega

@[simp] theorem fieldAddr_jType (op : BitVec 6) (addr : JumpField) :
    fieldAddr (jType op addr) = addr := by
  apply BitVec.eq_of_getLsbD_eq
  intro i hi
  simp only [fieldAddr, jType, BitVec.getLsbD_extractLsb', BitVec.getLsbD_append, hi, decide_true,
    Bool.true_and]
  simp (disch := omega) only [if_pos]
  rw [Nat.zero_add]

/-- The low eleven bits of an R-type word are `shamt` and `funct`. -/
@[simp] theorem low11_rType (op : BitVec 6) (rs rt rd : Reg) (shamt : Shamt) (fn : BitVec 6) :
    (rType op rs rt rd shamt fn).extractLsb' 0 11 = shamt ++ fn := by
  apply BitVec.eq_of_getLsbD_eq
  intro i hi
  simp only [rType, BitVec.getLsbD_extractLsb', BitVec.getLsbD_append, hi, decide_true, Bool.true_and,
    Nat.zero_add]
  split
  · rfl
  · rw [if_pos (by omega)]

/-! ### A word from its fields -/

/-- A bit of an extracted field, at an index inside the field. -/
theorem getLsbD_field {n start len k i : Nat} {w : BitVec n} (hk : k < len) (h : start + k = i) :
    (w.extractLsb' start len).getLsbD k = w.getLsbD i := by
  rw [BitVec.getLsbD_extractLsb', decide_eq_true hk, Bool.true_and, h]

theorem rType_fields (w : Word) :
    rType (opcode w) (fieldRs w) (fieldRt w) (fieldRd w) (fieldShamt w) (funct w) = w := by
  apply BitVec.eq_of_getLsbD_eq
  intro i hi
  simp only [rType, opcode, fieldRs, fieldRt, fieldRd, fieldShamt, funct, BitVec.getLsbD_append]
  split_ifs <;> exact getLsbD_field (by omega) (by omega)

theorem iType_fields (w : Word) : iType (opcode w) (fieldRs w) (fieldRt w) (fieldImm w) = w := by
  apply BitVec.eq_of_getLsbD_eq
  intro i hi
  simp only [iType, opcode, fieldRs, fieldRt, fieldImm, BitVec.getLsbD_append]
  split_ifs <;> exact getLsbD_field (by omega) (by omega)

theorem jType_fields (w : Word) : jType (opcode w) (fieldAddr w) = w := by
  apply BitVec.eq_of_getLsbD_eq
  intro i hi
  simp only [jType, opcode, fieldAddr, BitVec.getLsbD_append]
  split_ifs <;> exact getLsbD_field (by omega) (by omega)

/-- Two words with the same fields are the same word. -/
theorem rType_ext {w v : Word} (h1 : opcode w = opcode v) (h2 : fieldRs w = fieldRs v)
    (h3 : fieldRt w = fieldRt v) (h4 : fieldRd w = fieldRd v) (h5 : fieldShamt w = fieldShamt v)
    (h6 : funct w = funct v) : w = v := by
  rw [← rType_fields w, ← rType_fields v, h1, h2, h3, h4, h5, h6]

theorem iType_ext {w v : Word} (h1 : opcode w = opcode v) (h2 : fieldRs w = fieldRs v)
    (h3 : fieldRt w = fieldRt v) (h4 : fieldImm w = fieldImm v) : w = v := by
  rw [← iType_fields w, ← iType_fields v, h1, h2, h3, h4]

/-! ### The masks of the pattern table (R95) as conditions on fields -/

theorem field_and {start len : Nat} (w m : Word) :
    (w &&& m).extractLsb' start len = w.extractLsb' start len &&& m.extractLsb' start len :=
  BitVec.extractLsb'_and

theorem and_ones {n : Nat} {x m : BitVec n} (h : m = BitVec.allOnes n) : x &&& m = x := by
  rw [h, BitVec.and_allOnes]

theorem and_zeros {n : Nat} {x m : BitVec n} (h : m = 0#n) : x &&& m = 0#n := by
  rw [h, BitVec.and_zero]

/-- The mask of the rows told apart by `opcode`, `shamt` and `funct`. -/
theorem mask_funct {w b : Word} (hb : b &&& 0xFC0007FF#32 = b) :
    w &&& 0xFC0007FF#32 = b ↔ opcode w = opcode b ∧ fieldShamt w = fieldShamt b ∧ funct w = funct b := by
  constructor
  · rintro rfl
    simp only [opcode, fieldShamt, funct, field_and]
    refine ⟨(and_ones (by decide)).symm, (and_ones (by decide)).symm, (and_ones (by decide)).symm⟩
  · rintro ⟨h1, h2, h3⟩
    rw [← hb]
    apply rType_ext <;>
      simp only [opcode, fieldRs, fieldRt, fieldRd, fieldShamt, funct, field_and] at *
    · rw [h1]
    · rw [and_zeros (by decide), and_zeros (by decide)]
    · rw [and_zeros (by decide), and_zeros (by decide)]
    · rw [and_zeros (by decide), and_zeros (by decide)]
    · rw [h2]
    · rw [h3]

/-- The mask of the rows told apart by `opcode`. -/
theorem mask_opcode {w b : Word} (hb : b &&& 0xFC000000#32 = b) :
    w &&& 0xFC000000#32 = b ↔ opcode w = opcode b := by
  constructor
  · rintro rfl
    simp only [opcode, field_and]
    exact (and_ones (by decide)).symm
  · intro h1
    rw [← hb]
    apply iType_ext <;> simp only [opcode, fieldRs, fieldRt, fieldImm, field_and] at *
    · rw [h1]
    all_goals rw [and_zeros (by decide), and_zeros (by decide)]

/-- The mask of BLTZ and BGEZ. -/
theorem mask_opcode_rt {w b : Word} (hb : b &&& 0xFC1F0000#32 = b) :
    w &&& 0xFC1F0000#32 = b ↔ opcode w = opcode b ∧ fieldRt w = fieldRt b := by
  constructor
  · rintro rfl
    simp only [opcode, fieldRt, field_and]
    exact ⟨(and_ones (by decide)).symm, (and_ones (by decide)).symm⟩
  · rintro ⟨h1, h2⟩
    rw [← hb]
    apply iType_ext <;> simp only [opcode, fieldRs, fieldRt, fieldImm, field_and] at *
    · rw [h1]
    · rw [and_zeros (by decide), and_zeros (by decide)]
    · rw [h2]
    · rw [and_zeros (by decide), and_zeros (by decide)]

/-- The mask of MFC0 and MTC0. -/
theorem mask_cop0 {w b : Word} (hb : b &&& 0xFFE007FF#32 = b) :
    w &&& 0xFFE007FF#32 = b ↔
      opcode w = opcode b ∧ fieldRs w = fieldRs b ∧ fieldShamt w = fieldShamt b ∧ funct w = funct b := by
  constructor
  · rintro rfl
    simp only [opcode, fieldRs, fieldShamt, funct, field_and]
    exact ⟨(and_ones (by decide)).symm, (and_ones (by decide)).symm, (and_ones (by decide)).symm,
      (and_ones (by decide)).symm⟩
  · rintro ⟨h1, h2, h3, h4⟩
    rw [← hb]
    apply rType_ext <;>
      simp only [opcode, fieldRs, fieldRt, fieldRd, fieldShamt, funct, field_and] at *
    · rw [h1]
    · rw [h2]
    · rw [and_zeros (by decide), and_zeros (by decide)]
    · rw [and_zeros (by decide), and_zeros (by decide)]
    · rw [h3]
    · rw [h4]

/-- The mask of SLL, SRL and SRA. -/
theorem mask_shift {w b : Word} (hb : b &&& 0xFC00003F#32 = b) :
    w &&& 0xFC00003F#32 = b ↔ opcode w = opcode b ∧ funct w = funct b := by
  constructor
  · rintro rfl
    simp only [opcode, funct, field_and]
    exact ⟨(and_ones (by decide)).symm, (and_ones (by decide)).symm⟩
  · rintro ⟨h1, h2⟩
    rw [← hb]
    apply rType_ext <;>
      simp only [opcode, fieldRs, fieldRt, fieldRd, fieldShamt, funct, field_and] at *
    · rw [h1]
    · rw [and_zeros (by decide), and_zeros (by decide)]
    · rw [and_zeros (by decide), and_zeros (by decide)]
    · rw [and_zeros (by decide), and_zeros (by decide)]
    · rw [and_zeros (by decide), and_zeros (by decide)]
    · rw [h2]

/-- The low eleven bits of a word are `shamt` and `funct`. -/
theorem low11 (w : Word) : w.extractLsb' 0 11 = fieldShamt w ++ funct w := by
  conv_lhs => rw [← rType_fields w]
  rw [low11_rType]

end Sys2Proof
end

