-- ==== Sys2Proof/Laws/Memory.lean ====
section
/-! SUPPORT. Laws of memory and of the address lists: a byte reads as last written, a write leaves every
other byte alone, and every operation keeps the canonical forms. -/

namespace Sys2Proof.Machine

/-! ### One byte -/

@[simp] theorem byteAt?_nil (a : Nat) : byteAt? [] a = none := rfl

theorem byteAt?_cons (c : Host.Cell) (m : Memory) (a : Nat) :
    byteAt? (c :: m) a = if c.1 = a then some c.2 else byteAt? m a := rfl

/-- In memory whose addresses lie above `a`, `a` has no entry. -/
theorem byteAt?_of_all_gt {m : Memory} {a : Nat} (h : ∀ c ∈ m, a < c.1) : byteAt? m a = none := by
  induction m with
  | nil => rfl
  | cons c m ih =>
    have hc := h c (by simp)
    rw [byteAt?_cons, if_neg (by omega), ih fun d hd => h d (by simp [hd])]

/-- A byte reads as last written, every other byte as before. No premise on the memory's form is
needed. -/
theorem byteAt?_setByte (m : Memory) (a x : Nat) (b : Byte) :
    byteAt? (setByte m a b) x = if x = a then some b else byteAt? m x := by
  induction m with
  | nil => simp only [setByte, byteAt?_cons, byteAt?_nil, eq_comm]
  | cons c m ih =>
    unfold setByte
    split
    · simp only [byteAt?_cons, eq_comm]
    · split
      · subst_vars
        simp only [byteAt?_cons]
        by_cases h : c.1 = x
        · simp [h]
        · simp [h, Ne.symm h]
      · by_cases h : c.1 = x
        · have : x ≠ a := by omega
          simp [byteAt?_cons, h, this]
        · simp [byteAt?_cons, h, ih]

theorem mem_setByte {m : Memory} {a : Nat} {b : Byte} {c : Host.Cell} (h : c ∈ setByte m a b) :
    c = (a, b) ∨ c ∈ m := by
  induction m with
  | nil => simpa [setByte] using h
  | cons d m ih =>
    unfold setByte at h
    split at h
    · simpa using h
    · split at h
      · rcases List.mem_cons.mp h with h | h
        · exact .inl h
        · exact .inr (by simp [h])
      · rcases List.mem_cons.mp h with h | h
        · exact .inr (by simp [h])
        · rcases ih h with h | h
          · exact .inl h
          · exact .inr (by simp [h])

/-- Writing a byte at an address of the space keeps the canonical form. -/
theorem setByte_wf {m : Memory} {a : Nat} (b : Byte) (hm : Memory.wf m) (ha : a < 4294967296) :
    Memory.wf (setByte m a b) := by
  refine ⟨?_, fun c hc => ?_⟩
  · have hp := hm.1
    clear hm
    induction m with
    | nil => simp [setByte]
    | cons d m ih =>
      rw [List.pairwise_cons] at hp
      unfold setByte
      split
      · refine List.pairwise_cons.mpr ⟨fun c hc => ?_, List.pairwise_cons.mpr hp⟩
        rcases List.mem_cons.mp hc with rfl | hc
        · assumption
        · exact Nat.lt_trans ‹_› (hp.1 c hc)
      · split
        · subst_vars
          exact List.pairwise_cons.mpr ⟨hp.1, hp.2⟩
        · refine List.pairwise_cons.mpr ⟨fun c hc => ?_, ih hp.2⟩
          rcases mem_setByte hc with rfl | hc
          · show d.1 < a
            omega
          · exact hp.1 c hc
  · rcases mem_setByte hc with rfl | hc
    · exact ha
    · exact hm.2 c hc

/-! ### Several bytes -/

@[simp] theorem setBytes_nil (m : Memory) (bs : List Byte) : setBytes m [] bs = m := by
  cases bs <;> rfl

@[simp] theorem setBytes_cons (m : Memory) (a : Word) (as : List Word) (b : Byte) (bs : List Byte) :
    setBytes m (a :: as) (b :: bs) = setBytes (setByte m a.toNat b) as bs := rfl

/-- Writing bytes keeps the canonical form: every address is a 32-bit word. -/
theorem setBytes_wf {m : Memory} (as : List Word) (bs : List Byte) (hm : Memory.wf m) :
    Memory.wf (setBytes m as bs) := by
  induction as generalizing m bs with
  | nil => simpa using hm
  | cons a as ih =>
    cases bs with
    | nil => exact hm
    | cons b bs => exact ih bs (setByte_wf b hm a.isLt)

/-- Writing bytes leaves every other address alone. -/
theorem byteAt?_setBytes_of_notMem {m : Memory} {as : List Word} (bs : List Byte) {x : Nat}
    (hx : ∀ a ∈ as, a.toNat ≠ x) : byteAt? (setBytes m as bs) x = byteAt? m x := by
  induction as generalizing m bs with
  | nil => simp
  | cons a as ih =>
    cases bs with
    | nil => rfl
    | cons b bs =>
      rw [setBytes_cons, ih bs fun c hc => hx c (by simp [hc]), byteAt?_setByte,
        if_neg fun h => hx a (by simp) h.symm]

/-! ### Strictly rising address lists -/

theorem mem_insertAscending {l : List Nat} {a x : Nat} : x ∈ insertAscending l a ↔ x = a ∨ x ∈ l := by
  induction l with
  | nil => simp [insertAscending]
  | cons y l ih =>
    unfold insertAscending
    split
    · simp
    · split
      · subst_vars
        simp
      · simp only [List.mem_cons, ih]
        tauto

theorem insertAscending_ascending {l : List Nat} (a : Nat) (h : Ascending l) :
    Ascending (insertAscending l a) := by
  induction l with
  | nil => simp [insertAscending]
  | cons y l ih =>
    rw [Ascending, List.pairwise_cons] at h
    unfold insertAscending
    split
    · refine List.pairwise_cons.mpr ⟨fun x hx => ?_, List.pairwise_cons.mpr h⟩
      rcases List.mem_cons.mp hx with rfl | hx
      · assumption
      · exact Nat.lt_trans ‹_› (h.1 x hx)
    · split
      · exact List.pairwise_cons.mpr h
      · refine List.pairwise_cons.mpr ⟨fun x hx => ?_, ih h.2⟩
        rcases mem_insertAscending.mp hx with rfl | hx
        · omega
        · exact h.1 x hx

/-! ### Footprints -/

@[simp] theorem footprint_byte (a : Word) : footprint .byte a = [a] := rfl

@[simp] theorem footprint_half (a : Word) : footprint .half a = [a, a + 1] := rfl

@[simp] theorem footprint_word (a : Word) :
    footprint .word a = [a, a + 1, a + 1 + 1, a + 1 + 1 + 1] := rfl

/-- The addresses of an access, counted up from the first one. -/
theorem footprint_eq_map (w : Width) (a : Word) :
    footprint w a = (List.range w.bytes).map fun k => a + BitVec.ofNat 32 k := by
  cases w <;> simp [Width.bytes, List.range, List.range.loop, BitVec.add_assoc]

/-- The bytes of an aligned access are the addresses counted up from the first one, without wrapping
round (R57: alignment excludes it). -/
theorem toNat_of_mem_footprint {w : Width} {a b : Word} (h : aligned w a = true)
    (hb : b ∈ footprint w a) : ∃ k, k < w.bytes ∧ b.toNat = a.toNat + k := by
  have ha := a.isLt
  cases w
  · exact ⟨0, by decide, by simp_all⟩
  · have h : a.toNat % 2 = 0 := by simpa [aligned, Width.bytes] using h
    rw [footprint_half, List.mem_cons, List.mem_singleton] at hb
    rcases hb with rfl | rfl
    · exact ⟨0, by decide, rfl⟩
    · exact ⟨1, by decide, by rw [BitVec.toNat_add]; simp; omega⟩
  · have h : a.toNat % 4 = 0 := by simpa [aligned, Width.bytes] using h
    simp only [footprint_word, List.mem_cons, List.not_mem_nil, or_false] at hb
    rcases hb with rfl | rfl | rfl | rfl
    · exact ⟨0, by decide, rfl⟩
    · exact ⟨1, by decide, by simp [BitVec.toNat_add]; omega⟩
    · exact ⟨2, by decide, by simp [BitVec.toNat_add]; omega⟩
    · exact ⟨3, by decide, by simp [BitVec.toNat_add]; omega⟩

end Sys2Proof.Machine
end

