-- ==== Sys2Proof/Laws/State.lean ====
section
/-! SUPPORT. One lemma per field per update of State, each true by `rfl`, so that no proof unfolds a record
update; and what each update does to the reading of a general register. -/

namespace Sys2Proof.Machine

variable (s : State)

/-! ### setReg -/

@[simp] theorem setReg_gpr (r : Reg) (v : Word) :
    (s.setReg r v).gpr = if r = 0#5 then s.gpr else s.gpr.set r.toNat v := rfl
@[simp] theorem setReg_hi (r : Reg) (v : Word) : (s.setReg r v).hi = s.hi := rfl
@[simp] theorem setReg_lo (r : Reg) (v : Word) : (s.setReg r v).lo = s.lo := rfl
@[simp] theorem setReg_pc (r : Reg) (v : Word) : (s.setReg r v).pc = s.pc := rfl
@[simp] theorem setReg_npc (r : Reg) (v : Word) : (s.setReg r v).npc = s.npc := rfl
@[simp] theorem setReg_inDelaySlot (r : Reg) (v : Word) :
    (s.setReg r v).inDelaySlot = s.inDelaySlot := rfl
@[simp] theorem setReg_cp0 (r : Reg) (v : Word) : (s.setReg r v).cp0 = s.cp0 := rfl
@[simp] theorem setReg_mem (r : Reg) (v : Word) : (s.setReg r v).mem = s.mem := rfl
@[simp] theorem setReg_cfg (r : Reg) (v : Word) : (s.setReg r v).cfg = s.cfg := rfl
@[simp] theorem setReg_mfc0Wait (r : Reg) (v : Word) : (s.setReg r v).mfc0Wait = s.mfc0Wait := rfl
@[simp] theorem setReg_draws (r : Reg) (v : Word) : (s.setReg r v).draws = s.draws := rfl

/-! ### advance -/

@[simp] theorem advance_gpr : (s.advance).gpr = s.gpr := rfl
@[simp] theorem advance_hi : (s.advance).hi = s.hi := rfl
@[simp] theorem advance_lo : (s.advance).lo = s.lo := rfl
@[simp] theorem advance_pc : (s.advance).pc = s.npc := rfl
@[simp] theorem advance_npc : (s.advance).npc = s.npc + 4 := rfl
@[simp] theorem advance_inDelaySlot : (s.advance).inDelaySlot = false := rfl
@[simp] theorem advance_cp0 : (s.advance).cp0 = s.cp0 := rfl
@[simp] theorem advance_mem : (s.advance).mem = s.mem := rfl
@[simp] theorem advance_cfg : (s.advance).cfg = s.cfg := rfl
@[simp] theorem advance_mfc0Wait : (s.advance).mfc0Wait = s.mfc0Wait := rfl
@[simp] theorem advance_draws : (s.advance).draws = s.draws := rfl

/-! ### transfer -/

@[simp] theorem transfer_gpr (t : Option Word) : (s.transfer t).gpr = s.gpr := rfl
@[simp] theorem transfer_hi (t : Option Word) : (s.transfer t).hi = s.hi := rfl
@[simp] theorem transfer_lo (t : Option Word) : (s.transfer t).lo = s.lo := rfl
@[simp] theorem transfer_pc (t : Option Word) : (s.transfer t).pc = s.npc := rfl
@[simp] theorem transfer_npc (t : Option Word) : (s.transfer t).npc = t.getD (s.npc + 4) := rfl
@[simp] theorem transfer_inDelaySlot (t : Option Word) : (s.transfer t).inDelaySlot = true := rfl
@[simp] theorem transfer_cp0 (t : Option Word) : (s.transfer t).cp0 = s.cp0 := rfl
@[simp] theorem transfer_mem (t : Option Word) : (s.transfer t).mem = s.mem := rfl
@[simp] theorem transfer_cfg (t : Option Word) : (s.transfer t).cfg = s.cfg := rfl
@[simp] theorem transfer_mfc0Wait (t : Option Word) : (s.transfer t).mfc0Wait = s.mfc0Wait := rfl
@[simp] theorem transfer_draws (t : Option Word) : (s.transfer t).draws = s.draws := rfl

/-! ### setHiLo -/

@[simp] theorem setHiLo_gpr (h l : Word) : (s.setHiLo h l).gpr = s.gpr := rfl
@[simp] theorem setHiLo_hi (h l : Word) : (s.setHiLo h l).hi = h := rfl
@[simp] theorem setHiLo_lo (h l : Word) : (s.setHiLo h l).lo = l := rfl
@[simp] theorem setHiLo_pc (h l : Word) : (s.setHiLo h l).pc = s.pc := rfl
@[simp] theorem setHiLo_npc (h l : Word) : (s.setHiLo h l).npc = s.npc := rfl
@[simp] theorem setHiLo_inDelaySlot (h l : Word) :
    (s.setHiLo h l).inDelaySlot = s.inDelaySlot := rfl
@[simp] theorem setHiLo_cp0 (h l : Word) : (s.setHiLo h l).cp0 = s.cp0 := rfl
@[simp] theorem setHiLo_mem (h l : Word) : (s.setHiLo h l).mem = s.mem := rfl
@[simp] theorem setHiLo_cfg (h l : Word) : (s.setHiLo h l).cfg = s.cfg := rfl
@[simp] theorem setHiLo_mfc0Wait (h l : Word) : (s.setHiLo h l).mfc0Wait = s.mfc0Wait := rfl
@[simp] theorem setHiLo_draws (h l : Word) : (s.setHiLo h l).draws = s.draws := rfl

/-! ### setProduct -/

@[simp] theorem setProduct_gpr (p : BitVec 64) : (s.setProduct p).gpr = s.gpr := rfl
@[simp] theorem setProduct_hi (p : BitVec 64) : (s.setProduct p).hi = p.extractLsb' 32 32 := rfl
@[simp] theorem setProduct_lo (p : BitVec 64) : (s.setProduct p).lo = p.extractLsb' 0 32 := rfl
@[simp] theorem setProduct_pc (p : BitVec 64) : (s.setProduct p).pc = s.pc := rfl
@[simp] theorem setProduct_npc (p : BitVec 64) : (s.setProduct p).npc = s.npc := rfl
@[simp] theorem setProduct_inDelaySlot (p : BitVec 64) :
    (s.setProduct p).inDelaySlot = s.inDelaySlot := rfl
@[simp] theorem setProduct_cp0 (p : BitVec 64) : (s.setProduct p).cp0 = s.cp0 := rfl
@[simp] theorem setProduct_mem (p : BitVec 64) : (s.setProduct p).mem = s.mem := rfl
@[simp] theorem setProduct_cfg (p : BitVec 64) : (s.setProduct p).cfg = s.cfg := rfl
@[simp] theorem setProduct_mfc0Wait (p : BitVec 64) : (s.setProduct p).mfc0Wait = s.mfc0Wait := rfl
@[simp] theorem setProduct_draws (p : BitVec 64) : (s.setProduct p).draws = s.draws := rfl

/-! ### drawHiLo -/

@[simp] theorem drawHiLo_gpr : (s.drawHiLo).gpr = s.gpr := rfl
@[simp] theorem drawHiLo_hi : (s.drawHiLo).hi = drawnHi s.cfg.div0Result s.draws := rfl
@[simp] theorem drawHiLo_lo : (s.drawHiLo).lo = drawnLo s.cfg.div0Result s.draws := rfl
@[simp] theorem drawHiLo_pc : (s.drawHiLo).pc = s.pc := rfl
@[simp] theorem drawHiLo_npc : (s.drawHiLo).npc = s.npc := rfl
@[simp] theorem drawHiLo_inDelaySlot : (s.drawHiLo).inDelaySlot = s.inDelaySlot := rfl
@[simp] theorem drawHiLo_cp0 : (s.drawHiLo).cp0 = s.cp0 := rfl
@[simp] theorem drawHiLo_mem : (s.drawHiLo).mem = s.mem := rfl
@[simp] theorem drawHiLo_cfg : (s.drawHiLo).cfg = s.cfg := rfl
@[simp] theorem drawHiLo_mfc0Wait : (s.drawHiLo).mfc0Wait = s.mfc0Wait := rfl
@[simp] theorem drawHiLo_draws : (s.drawHiLo).draws = s.draws + 1 := rfl

/-! ### accessCp0 -/

@[simp] theorem accessCp0_gpr (c : Vector Word 32) : (s.accessCp0 c).gpr = s.gpr := rfl
@[simp] theorem accessCp0_hi (c : Vector Word 32) : (s.accessCp0 c).hi = s.hi := rfl
@[simp] theorem accessCp0_lo (c : Vector Word 32) : (s.accessCp0 c).lo = s.lo := rfl
@[simp] theorem accessCp0_pc (c : Vector Word 32) : (s.accessCp0 c).pc = s.pc := rfl
@[simp] theorem accessCp0_npc (c : Vector Word 32) : (s.accessCp0 c).npc = s.npc := rfl
@[simp] theorem accessCp0_inDelaySlot (c : Vector Word 32) :
    (s.accessCp0 c).inDelaySlot = s.inDelaySlot := rfl
@[simp] theorem accessCp0_cp0 (c : Vector Word 32) : (s.accessCp0 c).cp0 = c := rfl
@[simp] theorem accessCp0_mem (c : Vector Word 32) : (s.accessCp0 c).mem = s.mem := rfl
@[simp] theorem accessCp0_cfg (c : Vector Word 32) : (s.accessCp0 c).cfg = s.cfg := rfl
@[simp] theorem accessCp0_mfc0Wait (c : Vector Word 32) : (s.accessCp0 c).mfc0Wait = s.mfc0Wait := rfl
@[simp] theorem accessCp0_draws (c : Vector Word 32) : (s.accessCp0 c).draws = s.draws + 1 := rfl

/-! ### afterRead -/

@[simp] theorem afterRead_gpr (w : Width) (a : Word) : (s.afterRead w a).gpr = s.gpr := rfl
@[simp] theorem afterRead_hi (w : Width) (a : Word) : (s.afterRead w a).hi = s.hi := rfl
@[simp] theorem afterRead_lo (w : Width) (a : Word) : (s.afterRead w a).lo = s.lo := rfl
@[simp] theorem afterRead_pc (w : Width) (a : Word) : (s.afterRead w a).pc = s.pc := rfl
@[simp] theorem afterRead_npc (w : Width) (a : Word) : (s.afterRead w a).npc = s.npc := rfl
@[simp] theorem afterRead_inDelaySlot (w : Width) (a : Word) :
    (s.afterRead w a).inDelaySlot = s.inDelaySlot := rfl
@[simp] theorem afterRead_cp0 (w : Width) (a : Word) : (s.afterRead w a).cp0 = s.cp0 := rfl
@[simp] theorem afterRead_mem (w : Width) (a : Word) : (s.afterRead w a).mem = s.mem := rfl
@[simp] theorem afterRead_cfg (w : Width) (a : Word) : (s.afterRead w a).cfg = s.cfg := rfl
@[simp] theorem afterRead_mfc0Wait (w : Width) (a : Word) : (s.afterRead w a).mfc0Wait = s.mfc0Wait := rfl
@[simp] theorem afterRead_draws (w : Width) (a : Word) :
    (s.afterRead w a).draws = if touchesShared s w a then s.draws + 1 else s.draws := rfl

/-! ### writeValue -/

@[simp] theorem writeValue_gpr (w : Width) (a v : Word) : (s.writeValue w a v).gpr = s.gpr := rfl
@[simp] theorem writeValue_hi (w : Width) (a v : Word) : (s.writeValue w a v).hi = s.hi := rfl
@[simp] theorem writeValue_lo (w : Width) (a v : Word) : (s.writeValue w a v).lo = s.lo := rfl
@[simp] theorem writeValue_pc (w : Width) (a v : Word) : (s.writeValue w a v).pc = s.pc := rfl
@[simp] theorem writeValue_npc (w : Width) (a v : Word) : (s.writeValue w a v).npc = s.npc := rfl
@[simp] theorem writeValue_inDelaySlot (w : Width) (a v : Word) :
    (s.writeValue w a v).inDelaySlot = s.inDelaySlot := rfl
@[simp] theorem writeValue_cp0 (w : Width) (a v : Word) : (s.writeValue w a v).cp0 = s.cp0 := rfl
@[simp] theorem writeValue_mem (w : Width) (a v : Word) :
    (s.writeValue w a v).mem = setBytes s.mem (footprint w a) (splitBytes s.cfg.byteOrder w.bytes v) := rfl
@[simp] theorem writeValue_cfg (w : Width) (a v : Word) : (s.writeValue w a v).cfg = s.cfg := rfl
@[simp] theorem writeValue_mfc0Wait (w : Width) (a v : Word) : (s.writeValue w a v).mfc0Wait = s.mfc0Wait := rfl
@[simp] theorem writeValue_draws (w : Width) (a v : Word) :
    (s.writeValue w a v).draws = s.draws := rfl

/-! ### startMfc0Wait -/

@[simp] theorem startMfc0Wait_gpr (r : Reg) : (s.startMfc0Wait r).gpr = s.gpr := rfl
@[simp] theorem startMfc0Wait_hi (r : Reg) : (s.startMfc0Wait r).hi = s.hi := rfl
@[simp] theorem startMfc0Wait_lo (r : Reg) : (s.startMfc0Wait r).lo = s.lo := rfl
@[simp] theorem startMfc0Wait_pc (r : Reg) : (s.startMfc0Wait r).pc = s.pc := rfl
@[simp] theorem startMfc0Wait_npc (r : Reg) : (s.startMfc0Wait r).npc = s.npc := rfl
@[simp] theorem startMfc0Wait_inDelaySlot (r : Reg) : (s.startMfc0Wait r).inDelaySlot = s.inDelaySlot := rfl
@[simp] theorem startMfc0Wait_cp0 (r : Reg) : (s.startMfc0Wait r).cp0 = s.cp0 := rfl
@[simp] theorem startMfc0Wait_mem (r : Reg) : (s.startMfc0Wait r).mem = s.mem := rfl
@[simp] theorem startMfc0Wait_cfg (r : Reg) : (s.startMfc0Wait r).cfg = s.cfg := rfl
@[simp] theorem startMfc0Wait_draws (r : Reg) : (s.startMfc0Wait r).draws = s.draws := rfl

theorem waitOf_filter_ne (l : List (Reg × Nat)) (r q : Reg) :
    waitOf (l.filter fun p => decide (p.1 ≠ r)) q = if q = r then 0 else waitOf l q := by
  induction l with
  | nil => simp [waitOf]
  | cons p l ih =>
    by_cases hp : p.1 = r
    · by_cases hq : q = r
      · simpa [hp, hq] using ih
      · simpa [waitOf, hp, hq, Ne.symm hq] using ih
    · by_cases hq : p.1 = q
      · simp [waitOf, hq, show ¬ q = r from hq ▸ hp]
      · simpa [waitOf, hp, hq] using ih

/-- The waits after MFC0 has written `r`; register 0 never waits. -/
theorem waitOf_startMfc0Wait (r q : Reg) :
    waitOf (s.startMfc0Wait r).mfc0Wait q =
      if q = r then (if r = 0#5 then 0 else s.cfg.mfc0Delay) else waitOf s.mfc0Wait q := by
  unfold State.startMfc0Wait
  by_cases h0 : r = 0#5
  · simp only [h0, true_or, if_true, waitOf_filter_ne]
  · by_cases hd : s.cfg.mfc0Delay = 0
    · simp only [h0, hd, or_true, if_true, if_false, waitOf_filter_ne]
    · by_cases hq : q = r
      · simp [h0, hd, hq, waitOf]
      · simp only [h0, hd, or_self, if_false, waitOf, Ne.symm hq, hq, waitOf_filter_ne]

/-- Every wait becomes one shorter. -/
theorem waitOf_shorterWaits (l : List (Reg × Nat)) (r : Reg) :
    waitOf (shorterWaits l) r = waitOf l r - 1 := by
  induction l with
  | nil => rfl
  | cons p l ih =>
    by_cases h : p.1 = r
    · simp [shorterWaits, waitOf, h]
    · simpa [shorterWaits, waitOf, h] using ih

/-! ### tickMfc0Wait -/

@[simp] theorem tickMfc0Wait_gpr : (s.tickMfc0Wait).gpr = s.gpr := rfl
@[simp] theorem tickMfc0Wait_hi : (s.tickMfc0Wait).hi = s.hi := rfl
@[simp] theorem tickMfc0Wait_lo : (s.tickMfc0Wait).lo = s.lo := rfl
@[simp] theorem tickMfc0Wait_pc : (s.tickMfc0Wait).pc = s.pc := rfl
@[simp] theorem tickMfc0Wait_npc : (s.tickMfc0Wait).npc = s.npc := rfl
@[simp] theorem tickMfc0Wait_inDelaySlot : (s.tickMfc0Wait).inDelaySlot = s.inDelaySlot := rfl
@[simp] theorem tickMfc0Wait_cp0 : (s.tickMfc0Wait).cp0 = s.cp0 := rfl
@[simp] theorem tickMfc0Wait_mem : (s.tickMfc0Wait).mem = s.mem := rfl
@[simp] theorem tickMfc0Wait_cfg : (s.tickMfc0Wait).cfg = s.cfg := rfl
@[simp] theorem tickMfc0Wait_mfc0Wait : (s.tickMfc0Wait).mfc0Wait = shorterWaits s.mfc0Wait := rfl
@[simp] theorem tickMfc0Wait_draws : (s.tickMfc0Wait).draws = s.draws := rfl

/-! ### afterFetch -/

@[simp] theorem afterFetch_gpr : (s.afterFetch).gpr = s.gpr := rfl
@[simp] theorem afterFetch_hi : (s.afterFetch).hi = s.hi := rfl
@[simp] theorem afterFetch_lo : (s.afterFetch).lo = s.lo := rfl
@[simp] theorem afterFetch_pc : (s.afterFetch).pc = s.pc := rfl
@[simp] theorem afterFetch_npc : (s.afterFetch).npc = s.npc := rfl
@[simp] theorem afterFetch_inDelaySlot : (s.afterFetch).inDelaySlot = s.inDelaySlot := rfl
@[simp] theorem afterFetch_cp0 : (s.afterFetch).cp0 = s.cp0 := rfl
@[simp] theorem afterFetch_mem : (s.afterFetch).mem = s.mem := rfl
@[simp] theorem afterFetch_cfg : (s.afterFetch).cfg = s.cfg := rfl
@[simp] theorem afterFetch_mfc0Wait : (s.afterFetch).mfc0Wait = shorterWaits s.mfc0Wait := rfl
@[simp] theorem afterFetch_draws :
    (s.afterFetch).draws = if touchesShared s .word s.pc then s.draws + 1 else s.draws := rfl

/-! ### Reading a general register -/

@[simp] theorem reg_zero : s.reg 0#5 = 0#32 := rfl

theorem reg_of_gpr_eq {s t : State} (h : s.gpr = t.gpr) (r : Reg) : s.reg r = t.reg r := by
  simp [State.reg, h]

theorem reg_setReg (r q : Reg) (v : Word) :
    (s.setReg r v).reg q = if q = 0#5 then 0#32 else if q = r then v else s.reg q := by
  by_cases hq : q = 0#5
  · simp only [State.reg, hq, if_true]
  · by_cases hr : r = 0#5
    · have hne : ¬ q = r := by rw [hr]; exact hq
      simp only [State.reg, setReg_gpr, hq, hr, if_true, if_false]
    · have hne : r.toNat = q.toNat ↔ q = r := by rw [← BitVec.toNat_inj]; exact eq_comm
      simp only [State.reg, hq, setReg_gpr, hr, if_false, Vector.getElem_set, hne]

@[simp] theorem setReg_zero (v : Word) : s.setReg 0#5 v = s := rfl

@[simp] theorem advance_reg (q : Reg) : (s.advance).reg q = s.reg q := rfl
@[simp] theorem transfer_reg (t : Option Word) (q : Reg) : (s.transfer t).reg q = s.reg q := rfl
@[simp] theorem setHiLo_reg (h l : Word) (q : Reg) : (s.setHiLo h l).reg q = s.reg q := rfl
@[simp] theorem setProduct_reg (p : BitVec 64) (q : Reg) : (s.setProduct p).reg q = s.reg q := rfl
@[simp] theorem drawHiLo_reg (q : Reg) : (s.drawHiLo).reg q = s.reg q := rfl
@[simp] theorem accessCp0_reg (c : Vector Word 32) (q : Reg) : (s.accessCp0 c).reg q = s.reg q := rfl
@[simp] theorem afterRead_reg (w : Width) (a : Word) (q : Reg) : (s.afterRead w a).reg q = s.reg q := rfl
@[simp] theorem writeValue_reg (w : Width) (a v : Word) (q : Reg) : (s.writeValue w a v).reg q = s.reg q := rfl
@[simp] theorem startMfc0Wait_reg (r q : Reg) : (s.startMfc0Wait r).reg q = s.reg q := rfl
@[simp] theorem tickMfc0Wait_reg (q : Reg) : (s.tickMfc0Wait).reg q = s.reg q := rfl
@[simp] theorem afterFetch_reg (q : Reg) : (s.afterFetch).reg q = s.reg q := rfl

end Sys2Proof.Machine
end

