-- ==== Sys2Proof/Laws/Ops.lean ====
section
/-! SUPPORT. For each shared operation, one lemma that says everything it can do: "if it answers next,
then …". A proof about an instruction cites these and does not unfold the operation. -/

namespace Sys2Proof.Machine

/-! ### Sequencing -/

section

variable {α β : Type}

@[simp] theorem andThen_next (a : α) (k : α → Res β) : andThen (.next a) k = k a := rfl

@[simp] theorem andThen_fault (f : Fault) (k : α → Res β) : andThen (.fault f) k = .fault f := rfl

@[simp] theorem andThen_refused (r : Refusal) (k : α → Res β) : andThen (.refused r) k = .refused r := rfl

/-- Two answers are the same when their values are, read the way the lemmas below write it. -/
theorem next_eq_next {a b : α} : (Host.Outcome.next a : Res α) = .next b ↔ b = a := by
  rw [Host.Outcome.next.injEq, eq_comm]

/-- A sequence answers next exactly when its first part does and the rest does from there. -/
theorem andThen_eq_next {o : Res α} {k : α → Res β} {b : β} :
    andThen o k = .next b ↔ ∃ a, o = .next a ∧ k a = .next b := by
  cases o <;> simp

end

/-! ### Ends of instructions -/

@[simp] theorem writeResult_eq_next {r : Reg} {v : Word} {s t : State} :
    writeResult r v s = .next t ↔ t = (s.setReg r v).advance := by
  simp [writeResult, eq_comm]

theorem unlessOverflow_eq_next {o : Bool} {s t : State} {k : Res State} :
    unlessOverflow o s k = .next t ↔ ¬ (o = true ∧ s.cfg.overflow = .refuse) ∧ k = .next t := by
  unfold unlessOverflow
  split <;> simp_all

theorem unlessOverflow_wrap {o : Bool} {s : State} {k : Res State} (h : s.cfg.overflow = .wrap) :
    unlessOverflow o s k = k := by
  simp [unlessOverflow, h]

theorem outsideDelaySlot_eq_next {s t : State} {k : Res State} :
    outsideDelaySlot s k = .next t ↔ s.inDelaySlot = false ∧ k = .next t := by
  unfold outsideDelaySlot
  split <;> simp_all

theorem branchIf_eq_next {c : Bool} {imm : Imm} {s t : State} :
    branchIf c imm s = .next t ↔
      s.inDelaySlot = false ∧ t = s.transfer (if c then some (s.branchTarget imm) else none) := by
  rw [branchIf, outsideDelaySlot_eq_next, next_eq_next]

/-! ### Checks of an access -/

theorem checkAligned_of_not {s : State} {k : AccessKind} {w : Width} {a : Word}
    (h : aligned w a = false) : checkAligned s k w a = .fault (.misaligned a w k) := by
  rw [checkAligned, h]
  cases s.cfg.misaligned
  rfl

theorem checkAligned_eq_next {s : State} {k : AccessKind} {w : Width} {a : Word} {u : Unit} :
    checkAligned s k w a = .next u ↔ aligned w a = true := by
  cases h : aligned w a
  · simp [checkAligned_of_not h]
  · simp [checkAligned, h]

/-- The map check passes exactly when every byte lies in memory, ram or shared. -/
theorem checkMap_eq_next {s : State} {k : AccessKind} {as : List Word} {u : Unit} :
    checkMap s k as = .next u ↔
      ∀ a ∈ as, regionAt s.cfg.memMap a.toNat = some .ram ∨ regionAt s.cfg.memMap a.toNat = some .shared := by
  unfold checkMap
  split
  · rename_i a h
    have := List.find?_some h
    have hm := List.mem_of_find?_eq_some h
    simp only [decide_eq_true_eq] at this
    simp only [reduceCtorEq, false_iff, not_forall]
    exact ⟨a, hm, by simp [this]⟩
  · rename_i h
    rw [List.find?_eq_none] at h
    split
    · rename_i a h'
      have := List.find?_some h'
      have hm := List.mem_of_find?_eq_some h'
      simp only [decide_eq_true_eq] at this
      simp only [reduceCtorEq, false_iff, not_forall]
      exact ⟨a, hm, by simp [this]⟩
    · rename_i h'
      rw [List.find?_eq_none] at h'
      simp only [true_iff]
      intro a ha
      have h1 := h a ha
      have h2 := h' a ha
      simp only [decide_eq_true_eq] at h1 h2
      match hr : regionAt s.cfg.memMap a.toNat with
      | some .ram => exact .inl rfl
      | some .shared => exact .inr rfl
      | some .device => exact absurd hr h2
      | none => exact absurd hr h1

theorem checkNotText_eq (s : State) (w : Width) (a : Word) :
    checkNotText s w a =
      if (footprint w a).any (fun b => decide (b.toNat ∈ s.cfg.programText)) then
        .fault (.storeIntoProgramText a)
      else .next () := by
  unfold checkNotText
  cases s.cfg.ifetchCoherence
  rfl

/-- The text check of a store passes exactly when none of its bytes lies in the program text. -/
theorem checkNotText_eq_next {s : State} {w : Width} {a : Word} {u : Unit} :
    checkNotText s w a = .next u ↔ ∀ b ∈ footprint w a, b.toNat ∉ s.cfg.programText := by
  rw [checkNotText_eq]
  split <;> simp_all

/-- The text check of a fetch passes exactly when every byte of the word at `pc` lies in the program
text. -/
theorem checkInText_eq_next {s : State} {u : Unit} :
    checkInText s = .next u ↔ ∀ b ∈ footprint .word s.pc, b.toNat ∈ s.cfg.programText := by
  unfold checkInText
  split
  · rename_i b h
    have hb := List.find?_some h
    have hm := List.mem_of_find?_eq_some h
    simp only [reduceCtorEq, false_iff, not_forall]
    exact ⟨b, hm, by simpa using hb⟩
  · rename_i h
    simpa using h

/-- No wait: no register that the instruction uses is waiting for its MFC0. -/
theorem checkMfc0Wait_eq_next {s : State} {i : Instr} {u : Unit} :
    checkMfc0Wait s i = .next u ↔ ∀ r ∈ sources i, waitOf s.mfc0Wait r = 0 := by
  unfold checkMfc0Wait
  split
  · rename_i r h
    have hr := List.find?_some h
    have hm := List.mem_of_find?_eq_some h
    simp only [reduceCtorEq, false_iff, not_forall]
    exact ⟨r, hm, by simpa using hr⟩
  · rename_i h
    simpa using h

/-- The configuration check passes exactly for the configurations the spec defines. -/
theorem checkConfig_eq_next {s : State} {u : Unit} :
    checkConfig s = .next u ↔ s.cfg.delaysDefined = true ∧ s.cfg.interrupts = .none := by
  unfold checkConfig
  split
  · split <;> simp_all
  · simp_all

/-! ### Reads -/

theorem readByte_eq_next {s : State} {k : AccessKind} {a : Word} {b : Byte} :
    readByte s k a = .next b ↔
      (regionAt s.cfg.memMap a.toNat = some .shared ∧ b = sharedByte s.draws a.toNat) ∨
      (regionAt s.cfg.memMap a.toNat ≠ some .shared ∧ byteAt? s.mem a.toNat = some b) := by
  unfold readByte
  split
  · simp_all [eq_comm]
  · split <;> simp_all

/-- A written byte of ram reads as it stands. -/
theorem readByte_ram {s : State} {k : AccessKind} {a : Word} {b : Byte}
    (h : regionAt s.cfg.memMap a.toNat = some .ram) (hb : byteAt? s.mem a.toNat = some b) :
    readByte s k a = .next b := by
  simp [readByte, h, hb]

/-- A byte shared with other masters reads as a free value. -/
theorem readByte_shared {s : State} {k : AccessKind} {a : Word}
    (h : regionAt s.cfg.memMap a.toNat = some .shared) :
    readByte s k a = .next (sharedByte s.draws a.toNat) := by
  simp [readByte, h]

/-- An access that meets ram only draws nothing. -/
theorem afterRead_ram {s : State} {w : Width} {a : Word}
    (h : ∀ b ∈ footprint w a, regionAt s.cfg.memMap b.toNat = some .ram) : s.afterRead w a = s := by
  have : touchesShared s w a = false := by
    simp only [touchesShared, List.any_eq_false]
    intro b hb
    simp [h b hb]
  simp [State.afterRead, this]

theorem load_eq_next {w : Width} {a : Word} {s : State} {v : Word} :
    load w a s = .next v ↔
      aligned w a = true ∧
      (∀ b ∈ footprint w a,
        regionAt s.cfg.memMap b.toNat = some .ram ∨ regionAt s.cfg.memMap b.toNat = some .shared) ∧
      readValue s .load w a = .next v := by
  simp [load, andThen_eq_next, checkAligned_eq_next, checkMap_eq_next]

/-- A load instruction that goes on has read a value and written it, extended, to `rt`. -/
theorem loadTo_eq_next {rt : Reg} {w : Width} {a : Word} {e : Word → Word} {s t : State} :
    loadTo rt w a e s = .next t ↔
      ∃ v, load w a s = .next v ∧ t = ((s.afterRead w a).setReg rt (e v)).advance := by
  simp only [loadTo, andThen_eq_next, next_eq_next]

/-! ### Writes -/

/-- A store instruction goes on exactly when the access is aligned, lies in memory and not in the program
text; then it writes the bytes of its width. -/
theorem storeFrom_eq_next {w : Width} {a v : Word} {s t : State} :
    storeFrom w a v s = .next t ↔
      aligned w a = true ∧
      (∀ b ∈ footprint w a,
        regionAt s.cfg.memMap b.toNat = some .ram ∨ regionAt s.cfg.memMap b.toNat = some .shared) ∧
      (∀ b ∈ footprint w a, b.toNat ∉ s.cfg.programText) ∧ t = (s.writeValue w a v).advance := by
  simp [storeFrom, andThen_eq_next, checkAligned_eq_next, checkMap_eq_next, checkNotText_eq_next,
    eq_comm (b := t)]

/-- A store leaves every byte outside its footprint alone. -/
theorem byteAt?_writeValue_of_notMem {s : State} {w : Width} {a v : Word} {x : Nat}
    (hx : ∀ b ∈ footprint w a, b.toNat ≠ x) :
    byteAt? (s.writeValue w a v).mem x = byteAt? s.mem x :=
  byteAt?_setBytes_of_notMem _ hx

/-- A store keeps the canonical form of memory. -/
theorem writeValue_wf {s : State} (w : Width) (a v : Word) (h : Memory.wf s.mem) :
    Memory.wf (s.writeValue w a v).mem :=
  setBytes_wf _ _ h

/-- Placing an instruction word keeps the canonical form of memory. -/
theorem placeWord_wf {s : State} (a w : Word) (h : Memory.wf s.mem) : Memory.wf (s.placeWord a w).mem :=
  setBytes_wf _ _ h

/-- Placing an instruction word keeps the canonical form of the program text. -/
theorem placeWord_text {s : State} (a w : Word) (h : Ascending s.cfg.programText) :
    Ascending (s.placeWord a w).cfg.programText :=
  insertAscending_ascending _ (insertAscending_ascending _ (insertAscending_ascending _
    (insertAscending_ascending _ h)))

/-- Placing an instruction word declares its four bytes as program text, and no others. -/
theorem mem_placeWord_text {s : State} {a w : Word} {x : Nat} :
    x ∈ (s.placeWord a w).cfg.programText ↔
      (∃ b ∈ footprint .word a, x = b.toNat) ∨ x ∈ s.cfg.programText := by
  simp only [State.placeWord, footprint_word, List.foldl_cons, List.foldl_nil, mem_insertAscending,
    List.mem_cons, List.not_mem_nil, or_false, exists_eq_or_imp, exists_eq_left]
  tauto

/-- Memory right after reset is the memory the platform has loaded. -/
theorem resetWith_wf (c : Config) {m : Memory} (h : Memory.wf m) : Memory.wf (State.resetWith c m).mem := h

/-- Memory at `State.reset` has the canonical form. -/
theorem reset_wf : Memory.wf State.reset.mem :=
  ⟨List.Pairwise.nil, fun _ h => nomatch h⟩

/-! ### Fetch and step -/

/-- A fetch goes on exactly when `pc` is aligned, its word lies in memory and in the program text, and
reads. -/
theorem fetch_eq_next {s : State} {v : Word} :
    fetch s = .next v ↔
      aligned .word s.pc = true ∧
      (∀ b ∈ footprint .word s.pc,
        regionAt s.cfg.memMap b.toNat = some .ram ∨ regionAt s.cfg.memMap b.toNat = some .shared) ∧
      (∀ b ∈ footprint .word s.pc, b.toNat ∈ s.cfg.programText) ∧
      readValue s .fetch .word s.pc = .next v := by
  unfold fetch
  split
  · rename_i h
    simp only [andThen_eq_next, checkMap_eq_next, checkInText_eq_next, next_eq_next]
    constructor
    · rintro ⟨-, hm, w, hr, -, ht, rfl⟩
      exact ⟨h, hm, ht, hr⟩
    · rintro ⟨-, hm, ht, hr⟩
      exact ⟨(), hm, v, hr, (), ht, rfl⟩
  · cases s.cfg.misaligned
    simp_all

theorem decodeFetched_eq_next {s : State} {w : Word} {i : Instr} :
    decodeFetched s w = .next i ↔ decodeWord w = .ok i := by
  unfold decodeFetched
  cases s.cfg.unlistedEncoding
  split <;> simp_all

/-- A step that goes on has fetched a word, decoded it, and executed the instruction, which uses no
register too soon. -/
theorem step_eq_next {s t : State} :
    step s = .next t ↔
      s.cfg.delaysDefined = true ∧ s.cfg.interrupts = .none ∧
      ∃ w i, fetch s = .next w ∧ decodeWord w = .ok i ∧ (∀ r ∈ sources i, waitOf s.mfc0Wait r = 0) ∧
        exec i s.afterFetch = .next t := by
  simp only [step, andThen_eq_next, decodeFetched_eq_next, checkMfc0Wait_eq_next, checkConfig_eq_next]
  constructor
  · rintro ⟨-, ⟨hd, hi⟩, w, hw, i, hdec, -, hr, ht⟩
    exact ⟨hd, hi, w, i, hw, hdec, hr, ht⟩
  · rintro ⟨hd, hi, w, i, hw, hdec, hr, ht⟩
    exact ⟨(), ⟨hd, hi⟩, w, hw, i, hdec, (), hr, ht⟩

end Sys2Proof.Machine
end

