-- ==== Sys2Proof/Laws/Run.lean ====
section
/-! SUPPORT. Runs as sequences of steps, so that no proof unfolds `Host.Core.run`. -/

namespace Sys2Proof.Machine

theorem runsTo_zero {s t : State} : RunsTo 0 s t ↔ t = s := by
  constructor
  · intro h
    injection h with h
    exact h.symm
  · rintro rfl
    rfl

/-- In any machine, a run of one step more is a step and then a run. -/
theorem run_succ_eq_next {M : Host.Core} {k : Nat} {s t : M.State} :
    M.run (k + 1) s = .next t ↔ ∃ u, M.step s = .next u ∧ M.run k u = .next t := by
  rw [Host.Core.run.eq_2]
  cases M.step s <;> simp

/-- A run of one step more is a step and then a run. -/
theorem runsTo_succ {k : Nat} {s t : State} :
    RunsTo (k + 1) s t ↔ ∃ u, step s = .next u ∧ RunsTo k u t :=
  run_succ_eq_next (M := Sys2Proof.core)

end Sys2Proof.Machine
end

