-- ==== Sys2Proof/Tests/Slice0.lean ====
section
/-! SUPPORT. Tests. The expected words and results are those of 95_test_vectors.md (the section is named at
each group); then one witness for the hypotheses of each obligation that has any, at boundary values. -/

namespace Sys2Proof.Tests

open Sys2Proof.Machine Sys2Proof.Claims

/-! ### Well-formedness -/

theorem test_wellFormed_refuses_sll_zero : Instr.wellFormed (.sll 0 0 0) = false := by decide

theorem test_wellFormed_accepts :
    Instr.wellFormed .nop = true ∧ Instr.wellFormed (.sll 0 0 1) = true ∧
    Instr.wellFormed (.sll 0 1 0) = true ∧ Instr.wellFormed (.sll 1 0 0) = true := by decide

/-! ### Decoding: the words of 1.2 and 2.7 for every constructor -/

theorem test_decode_arithmetic :
    decodeWord 0x02328020#32 = .ok (.add 16 17 18) ∧
    decodeWord 0x02328021#32 = .ok (.addu 16 17 18) ∧
    decodeWord 0x22300005#32 = .ok (.addi 16 17 5) ∧
    decodeWord 0x26300005#32 = .ok (.addiu 16 17 5) ∧
    decodeWord 0x0232802A#32 = .ok (.slt 16 17 18) ∧
    decodeWord 0x0232802B#32 = .ok (.sltu 16 17 18) ∧
    decodeWord 0x2A300009#32 = .ok (.slti 16 17 9) ∧
    decodeWord 0x2E300009#32 = .ok (.sltiu 16 17 9) ∧
    decodeWord 0x02328022#32 = .ok (.sub 16 17 18) ∧
    decodeWord 0x02328023#32 = .ok (.subu 16 17 18) := by decide

theorem test_decode_logical :
    decodeWord 0x02328024#32 = .ok (.and 16 17 18) ∧
    decodeWord 0x32300005#32 = .ok (.andi 16 17 5) ∧
    decodeWord 0x3C10FFF7#32 = .ok (.lui 16 0xFFF7) ∧
    decodeWord 0x3FF0FFF7#32 = .ok (.lui 16 0xFFF7) ∧
    decodeWord 0x02328027#32 = .ok (.nor 16 17 18) ∧
    decodeWord 0x02328025#32 = .ok (.or 16 17 18) ∧
    decodeWord 0x3630FFFB#32 = .ok (.ori 16 17 0xFFFB) ∧
    decodeWord 0x02328026#32 = .ok (.xor 16 17 18) ∧
    decodeWord 0x3A30FFFB#32 = .ok (.xori 16 17 0xFFFB) := by decide

theorem test_decode_branches :
    decodeWord 0x11090003#32 = .ok (.beq 8 9 3) ∧
    decodeWord 0x16110000#32 = .ok (.bne 16 17 0) ∧
    decodeWord 0x05010001#32 = .ok (.bgez 8 1) ∧
    decodeWord 0x1D000005#32 = .ok (.bgtz 8 5) ∧
    decodeWord 0x1E1F0000#32 = .ok (.bgtz 16 0) ∧
    decodeWord 0x19000005#32 = .ok (.blez 8 5) ∧
    decodeWord 0x0500FFFE#32 = .ok (.bltz 8 0xFFFE) := by decide

theorem test_decode_jumps :
    decodeWord 0x08000400#32 = .ok (.j 0x400) ∧
    decodeWord 0x0C000400#32 = .ok (.jal 0x400) ∧
    decodeWord 0x03E00008#32 = .ok (.jr 31) ∧
    decodeWord 0x03FFF808#32 = .ok (.jr 31) ∧
    decodeWord 0x0200F809#32 = .ok (.jalr 16) ∧
    decodeWord 0x02000009#32 = .ok (.jalr 16) := by decide

theorem test_decode_muldiv :
    decodeWord 0x0211001A#32 = .ok (.div 16 17) ∧
    decodeWord 0x0211F81A#32 = .ok (.div 16 17) ∧
    decodeWord 0x0211001B#32 = .ok (.divu 16 17) ∧
    decodeWord 0x00008010#32 = .ok (.mfhi 16) ∧
    decodeWord 0x02400011#32 = .ok (.mthi 18) ∧
    decodeWord 0x00008012#32 = .ok (.mflo 16) ∧
    decodeWord 0x02400013#32 = .ok (.mtlo 18) ∧
    decodeWord 0x02110018#32 = .ok (.mult 16 17) ∧
    decodeWord 0x02110019#32 = .ok (.multu 16 17) ∧
    decodeWord 0x72328002#32 = .ok (.mul 16 17 18) := by decide

theorem test_decode_loads_stores :
    decodeWord 0x82300014#32 = .ok (.lb 16 17 20) ∧
    decodeWord 0x92300014#32 = .ok (.lbu 16 17 20) ∧
    decodeWord 0x86300014#32 = .ok (.lh 16 17 20) ∧
    decodeWord 0x96300014#32 = .ok (.lhu 16 17 20) ∧
    decodeWord 0x8E300014#32 = .ok (.lw 16 17 20) ∧
    decodeWord 0xA2300014#32 = .ok (.sb 16 17 20) ∧
    decodeWord 0xA6300014#32 = .ok (.sh 16 17 20) ∧
    decodeWord 0xAE300014#32 = .ok (.sw 16 17 20) := by decide

theorem test_decode_cop0 :
    decodeWord 0x40086000#32 = .ok (.mfc0 8 12) ∧
    decodeWord 0x40886000#32 = .ok (.mtc0 8 12) := by decide

/-- The last word has a don't-care `rs` field that is not zero: SLL's row, not NOP's (log 19). -/
theorem test_decode_shifts :
    decodeWord 0x00000000#32 = .ok .nop ∧
    decodeWord 0x00000040#32 = .ok (.sll 0 0 1) ∧
    decodeWord 0x00118080#32 = .ok (.sll 16 17 2) ∧
    decodeWord 0x02518004#32 = .ok (.sllv 16 17 18) ∧
    decodeWord 0x00118082#32 = .ok (.srl 16 17 2) ∧
    decodeWord 0x02518006#32 = .ok (.srlv 16 17 18) ∧
    decodeWord 0x00118083#32 = .ok (.sra 16 17 2) ∧
    decodeWord 0x02518007#32 = .ok (.srav 16 17 18) ∧
    decodeWord 0x00200000#32 = .ok (.sll 0 0 0) := by decide

/-- The unlisted words of 2.8. -/
theorem test_decode_unlisted :
    decodeWord 0x0000000C#32 = .error .noSuchFunct ∧
    decodeWord 0x0000000D#32 = .error .noSuchFunct ∧
    decodeWord 0x0000000F#32 = .error .noSuchFunct ∧
    decodeWord 0x00000001#32 = .error .noSuchFunct ∧
    decodeWord 0x02328060#32 = .error .shamtNotZero ∧
    decodeWord 0x03E00048#32 = .error .shamtNotZero ∧
    decodeWord 0x04020000#32 = .error .noSuchBranch ∧
    decodeWord 0x04110000#32 = .error .noSuchBranch ∧
    decodeWord 0x40086001#32 = .error .noSuchCop0Move ∧
    decodeWord 0x42000018#32 = .error .noSuchCop0Move ∧
    decodeWord 0x70000000#32 = .error .notMul ∧
    decodeWord 0x72328042#32 = .error .notMul ∧
    decodeWord 0x44000000#32 = .error .noSuchOpcode ∧
    decodeWord 0x7C000000#32 = .error .noSuchOpcode ∧
    decodeWord 0x88000000#32 = .error .noSuchOpcode ∧
    decodeWord 0xB8000000#32 = .error .noSuchOpcode ∧
    decodeWord 0xC0000000#32 = .error .noSuchOpcode ∧
    decodeWord 0xFFFFFFFF#32 = .error .noSuchOpcode := by decide

/-- The assembler's words of 1.2, don't-care fields included. -/
theorem test_encode :
    encode (.jalr 16) = 0x0200F809#32 ∧ encode (.div 16 17) = 0x0211001A#32 ∧
    encode (.lui 16 0xFFF7) = 0x3C10FFF7#32 ∧ encode (.bgtz 16 0) = 0x1E000000#32 ∧
    encode (.sw 8 9 0xFFFC) = 0xAD28FFFC#32 ∧ encode (.sllv 16 17 18) = 0x02518004#32 := by decide

theorem test_decode_streams :
    decode .little [0x20, 0x80, 0x32, 0x02, 0xFF] = .ok (.add 16 17 18, [0xFF]) ∧
    decode .big [0x02, 0x32, 0x80, 0x20] = .ok (.add 16 17 18, []) ∧
    decode .little [0x20, 0x80, 0x32] = .error .tooShort := by decide

theorem test_decodeTableWord :
    decodeTableWord 32 0x02328020 = some (.add 16 17 18) ∧ decodeTableWord 32 0x0000000C = none := by
  decide

/-! ### Helpers: small states, and one field of what an instruction leaves -/

/-- The state after reset with `$s1` and `$s2` set, in a configuration. -/
def withRegs (c : Config) (a b : Word) : State := ((State.resetWith c []).setReg 17 a).setReg 18 b

/-- The same in the standard configuration. -/
def regs (a b : Word) : State := withRegs Config.standard a b

/-- The memory of 2.6: bytes 84 7F 82 81 at 20000000, and `$s1` holding that address. -/
def loaded (c : Config) : State :=
  { withRegs c 0x20000000 0x81827F84 with
    mem := [(0x20000000, 0x84), (0x20000001, 0x7F), (0x20000002, 0x82), (0x20000003, 0x81)] }

/-- The state after reset at another pc. -/
def atPc (p a : Word) : State := { regs a 0 with pc := p, npc := p + 4 }

/-- A general register after the instruction. -/
def result (i : Instr) (s : State) (q : Reg) : Option Word :=
  match exec i s with
  | .next t => some (t.reg q)
  | .fault _ => none
  | .refused _ => none

/-- HI and LO after the instruction. -/
def hiLo (i : Instr) (s : State) : Option (Word × Word) :=
  match exec i s with
  | .next t => some (t.hi, t.lo)
  | .fault _ => none
  | .refused _ => none

/-- `pc`, `npc` and the delay-slot flag after the instruction. -/
def flow (i : Instr) (s : State) : Option (Word × Word × Bool) :=
  match exec i s with
  | .next t => some (t.pc, t.npc, t.inDelaySlot)
  | .fault _ => none
  | .refused _ => none

/-- Memory after the instruction. -/
def memory (i : Instr) (s : State) : Option Memory :=
  match exec i s with
  | .next t => some t.mem
  | .fault _ => none
  | .refused _ => none

/-- The fault the instruction stops with. -/
def faultOf (o : Res State) : Option Fault :=
  match o with
  | .next _ => none
  | .fault f => some f
  | .refused _ => none

/-- A register after one step. -/
def stepResult (s : State) (q : Reg) : Option Word :=
  match step s with
  | .next t => some (t.reg q)
  | .fault _ => none
  | .refused _ => none

/-! ### 2.1: add and subtract -/

theorem test_add :
    result (.add 16 17 18) (regs 1 2) 16 = some 3 ∧
    result (.add 16 17 18) (regs 0x7FFFFFFF 1) 16 = some 0x80000000 := by decide

theorem test_add_refuses_overflow :
    faultOf (exec (.add 16 17 18) (withRegs { overflow := .refuse } 0x7FFFFFFF 1)) =
      some (.signedOverflow 0) := by decide

theorem test_addu : result (.addu 16 17 18) (regs 0xFFFFFFFF 1) 16 = some 0 := by decide

theorem test_addi :
    result (.addi 16 17 0xFFFF) (regs 0x80000000 0) 16 = some 0x7FFFFFFF ∧
    result (.addi 0 0 5) (regs 0 0) 0 = some 0 := by decide

theorem test_addiu : result (.addiu 16 17 0x7FFF) (regs 0xFFFFFFFF 0) 16 = some 0x00007FFE := by decide

theorem test_sub :
    result (.sub 16 17 18) (regs 1 2) 16 = some 0xFFFFFFFF ∧
    faultOf (exec (.sub 16 17 18) (withRegs { overflow := .refuse } 0x80000000 1)) =
      some (.signedOverflow 0) := by decide

theorem test_subu : result (.subu 16 17 18) (regs 0x7FFFFFFF 1) 16 = some 0x7FFFFFFE := by decide

/-! ### 2.2: set on less than -/

theorem test_slt :
    result (.slt 16 17 18) (regs 0xFFFFFFFF 0) 16 = some 1 ∧
    result (.slt 16 17 18) (regs 5 5) 16 = some 0 := by decide

theorem test_sltu :
    result (.sltu 16 17 18) (regs 0xFFFFFFFF 0) 16 = some 0 ∧
    result (.sltu 16 17 18) (regs 0 0xFFFFFFFF) 16 = some 1 := by decide

theorem test_slti :
    result (.slti 16 17 0xFFFF) (regs 0 0) 16 = some 0 ∧
    result (.slti 16 17 0x8000) (regs 0xFFFF7FFF 0) 16 = some 1 := by decide

theorem test_sltiu :
    result (.sltiu 16 17 0xFFFF) (regs 0 0) 16 = some 1 ∧
    result (.sltiu 16 17 0x8000) (regs 0x7FFFFFFF 0) 16 = some 1 := by decide

/-! ### 2.3: logical -/

theorem test_and : result (.and 16 17 18) (regs 0x12345678 0x0F0F0F0F) 16 = some 0x02040608 := by decide

theorem test_or : result (.or 16 17 18) (regs 0x12345678 0x0F0F0F0F) 16 = some 0x1F3F5F7F := by decide

theorem test_xor : result (.xor 16 17 18) (regs 0x12345678 0x0F0F0F0F) 16 = some 0x1D3B5977 := by decide

theorem test_nor :
    result (.nor 16 17 18) (regs 0x12345678 0x0F0F0F0F) 16 = some 0xE0C0A080 ∧
    result (.nor 16 17 18) (regs 0 0) 16 = some 0xFFFFFFFF := by decide

theorem test_andi : result (.andi 16 17 0xFFFB) (regs 0xFFFF1234 0) 16 = some 0x00001230 := by decide

theorem test_ori : result (.ori 16 17 0x8000) (regs 0xFFFF1234 0) 16 = some 0xFFFF9234 := by decide

theorem test_xori : result (.xori 16 17 0xFFFB) (regs 0xFFFF1234 0) 16 = some 0xFFFFEDCF := by decide

theorem test_lui : result (.lui 16 0xFFF7) (regs 0 0) 16 = some 0xFFF70000 := by decide

/-! ### 2.4: shifts -/

theorem test_sll :
    result (.sll 16 17 4) (regs 0x80000001 0) 16 = some 0x00000010 ∧
    result (.sll 16 17 31) (regs 0x80000001 0) 16 = some 0x80000000 := by decide

theorem test_srl :
    result (.srl 16 17 4) (regs 0x80000001 0) 16 = some 0x08000000 ∧
    result (.srl 16 17 31) (regs 0x80000001 0) 16 = some 1 := by decide

theorem test_sra :
    result (.sra 16 17 4) (regs 0x80000001 0) 16 = some 0xF8000000 ∧
    result (.sra 16 17 31) (regs 0x80000001 0) 16 = some 0xFFFFFFFF := by decide

theorem test_sllv :
    result (.sllv 16 17 18) (regs 0x80000001 0x20) 16 = some 0x80000001 ∧
    result (.sllv 16 17 18) (regs 0x80000001 0x21) 16 = some 2 := by decide

theorem test_srlv :
    result (.srlv 16 17 18) (regs 0x80000001 0x21) 16 = some 0x40000000 ∧
    result (.srlv 16 17 18) (regs 0x80000001 0xFFFFFFFF) 16 = some 1 := by decide

theorem test_srav :
    result (.srav 16 17 18) (regs 0x80000001 0x21) 16 = some 0xC0000000 ∧
    result (.srav 16 17 18) (regs 0x80000001 0x1F) 16 = some 0xFFFFFFFF := by decide

theorem test_nop :
    flow .nop (regs 0 0) = some (4, 8, false) ∧ result .nop (regs 7 0) 17 = some 7 := by decide

/-! ### 2.5: multiply and divide -/

theorem test_mult :
    hiLo (.mult 17 18) (regs 0xFFFFFFFE 3) = some (0xFFFFFFFF, 0xFFFFFFFA) ∧
    hiLo (.mult 17 18) (regs 0x80000000 0x80000000) = some (0x40000000, 0) := by decide

theorem test_multu :
    hiLo (.multu 17 18) (regs 0xFFFFFFFE 3) = some (2, 0xFFFFFFFA) ∧
    hiLo (.multu 17 18) (regs 0xFFFFFFFF 0xFFFFFFFF) = some (0xFFFFFFFE, 1) := by decide

theorem test_mul :
    result (.mul 16 17 18) (regs 0x80000000 0xFFFFFFFF) 16 = some 0x80000000 ∧
    hiLo (.mul 16 17 18) ((regs 3 4).setHiLo 5 6) = some (5, 6) := by decide

/-- -7 / 2 and 7 / -2. -/
theorem test_div :
    hiLo (.div 17 18) (regs 0xFFFFFFF9 2) = some (0xFFFFFFFF, 0xFFFFFFFD) ∧
    hiLo (.div 17 18) (regs 7 0xFFFFFFFE) = some (1, 0xFFFFFFFD) := by decide

theorem test_div_overflow :
    hiLo (.div 17 18) (regs 0x80000000 0xFFFFFFFF) = some (0, 0x80000000) ∧
    hiLo (.div 17 18) (regs 0x7FFFFFFF 0xFFFFFFFF) = some (0, 0x80000001) := by decide

theorem test_divu :
    hiLo (.divu 17 18) (regs 0xFFFFFFF9 2) = some (1, 0x7FFFFFFC) ∧
    hiLo (.divu 17 18) (regs 0x80000000 0xFFFFFFFF) = some (0x80000000, 0) := by decide

/-- Division by zero goes on; the two results are the free values. -/
theorem test_divu_by_zero : hiLo (.divu 17 18) (regs 5 0) = some (drawnHi (.draw 0) 0, drawnLo (.draw 0) 0) := rfl

theorem test_mfhi : result (.mfhi 16) ((regs 0 0).setHiLo 5 6) 16 = some 5 := by decide

theorem test_mflo : result (.mflo 16) ((regs 0 0).setHiLo 5 6) 16 = some 6 := by decide

theorem test_mthi : hiLo (.mthi 17) ((regs 9 0).setHiLo 5 6) = some (9, 6) := by decide

theorem test_mtlo : hiLo (.mtlo 17) ((regs 9 0).setHiLo 5 6) = some (5, 9) := by decide

/-! ### 2.6: loads and stores -/

theorem test_lb :
    result (.lb 16 17 0) (loaded {}) 16 = some 0xFFFFFF84 ∧
    result (.lb 16 17 1) (loaded {}) 16 = some 0x7F := by decide

theorem test_lbu : result (.lbu 16 17 0) (loaded {}) 16 = some 0x84 := by decide

theorem test_lh :
    result (.lh 16 17 2) (loaded {}) 16 = some 0xFFFF8182 ∧
    result (.lh 16 17 0) (loaded {}) 16 = some 0x7F84 := by decide

theorem test_lhu :
    result (.lhu 16 17 2) (loaded {}) 16 = some 0x8182 ∧
    faultOf (exec (.lhu 16 17 1) (loaded {})) = some (.misaligned 0x20000001 .half .load) := by decide

theorem test_lw :
    result (.lw 16 17 0) (loaded {}) 16 = some 0x81827F84 ∧
    faultOf (exec (.lw 16 17 2) (loaded {})) = some (.misaligned 0x20000002 .word .load) := by decide

/-- The alternative byte order (20_memory.md R52), and the wrap of 2.6 below address 0. -/
theorem test_lw_big_endian_and_wrap :
    result (.lw 16 17 0) (loaded { byteOrder := .big }) 16 = some 0x847F8281 ∧
    faultOf (exec (.lw 8 17 0xFFFC) (regs 2 0)) = some (.misaligned 0xFFFFFFFE .word .load) := by decide

theorem test_sb :
    memory (.sb 18 17 7) (regs 0x20000000 0x81827F84) = some [(0x20000007, 0x84)] := by decide

theorem test_sh :
    memory (.sh 18 17 4) (regs 0x20000000 0x81827F84) =
      some [(0x20000004, 0x84), (0x20000005, 0x7F)] := by decide

theorem test_sw :
    memory (.sw 18 17 0) (regs 0x20000000 0x81827F84) = some (loaded {}).mem ∧
    memory (.sw 18 17 0xFFFC) (withRegs { byteOrder := .big } 0x20000004 0x847F8281) =
      some (loaded {}).mem := by decide

/-! ### 2.7: branches and jumps -/

/-- Targets of a branch at 1000, with both readings of PC (42_control_transfer.md R151). -/
theorem test_beq :
    flow (.beq 17 17 0xFFFE) (atPc 0x1000 0) = some (0x1004, 0x0FFC, true) ∧
    flow (.beq 17 0 3) (atPc 0x1000 1) = some (0x1004, 0x1008, true) := by decide

theorem test_bne :
    flow (.bne 17 0 0x8000) (atPc 0x1000 1) = some (0x1004, 0xFFFE1004, true) ∧
    flow (.bne 17 17 3) (atPc 0x1000 0) = some (0x1004, 0x1008, true) := by decide

theorem test_branch_from_delay_slot_base :
    flow (.beq 0 0 3) (withRegs { pcBase := .delaySlot } 0 0) = some (4, 20, true) := by decide

theorem test_bgez :
    flow (.bgez 17 3) (atPc 0x1000 0) = some (0x1004, 0x1010, true) ∧
    flow (.bgez 17 3) (atPc 0x1000 0x80000000) = some (0x1004, 0x1008, true) := by decide

theorem test_bgtz :
    flow (.bgtz 17 3) (atPc 0x1000 0x7FFFFFFF) = some (0x1004, 0x1010, true) ∧
    flow (.bgtz 17 3) (atPc 0x1000 0) = some (0x1004, 0x1008, true) := by decide

theorem test_blez :
    flow (.blez 17 0x7FFF) (atPc 0x1000 0) = some (0x1004, 0x21000, true) ∧
    flow (.blez 17 3) (atPc 0x1000 1) = some (0x1004, 0x1008, true) := by decide

theorem test_bltz :
    flow (.bltz 17 3) (atPc 0x1000 0xFFFFFFFF) = some (0x1004, 0x1010, true) ∧
    flow (.bltz 17 3) (atPc 0x1000 0) = some (0x1004, 0x1008, true) := by decide

theorem test_j :
    flow (.j 1) (atPc 0x0FFFFFFC 0) = some (0x10000000, 0x10000004, true) ∧
    flow (.j 0x3FFFFFF) (atPc 0x10001000 0) = some (0x10001004, 0x1FFFFFFC, true) := by decide

theorem test_jal :
    flow (.jal 2) (atPc 0xFFFFFFFC 0) = some (0, 8, true) ∧
    result (.jal 2) (atPc 0xFFFFFFFC 0) 31 = some 4 := by decide

theorem test_jr :
    flow (.jr 17) (atPc 0x2000 0x3000) = some (0x2004, 0x3000, true) ∧
    faultOf (step (atPc 0x3002 0)) = some (.misalignedTarget 0x3002) := by decide

theorem test_jalr :
    flow (.jalr 17) (atPc 0x2000 0x3000) = some (0x2004, 0x3000, true) ∧
    result (.jalr 17) (atPc 0x2000 0x3000) 31 = some 0x2008 := by decide

theorem test_branch_in_delay_slot :
    faultOf (exec (.beq 0 0 1) { regs 0 0 with inDelaySlot := true }) =
      some (.controlTransferInDelaySlot 0) ∧
    faultOf (exec (.jalr 31) (regs 0 0)) = some (.jalrSameRegister 0) := by decide

/-! ### Coprocessor 0 (45_coprocessor0.md R223) -/

theorem test_mfc0 :
    faultOf (exec (.mfc0 8 12) (regs 0 0)) = some (.cop0 0x40086000 0) := by decide

theorem test_mtc0 :
    faultOf (exec (.mtc0 8 12) (regs 0 0)) = some (.cop0 0x40886000 0) := by decide

/-- Under CP0_MODEL = supplied both complete; the values are the free ones. -/
theorem test_mfc0_supplied :
    result (.mfc0 8 12) (withRegs { cp0Model := .supplied } 0 0) 8 =
      some (cp0Value 0 12 (Vector.replicate 32 0)) := rfl

theorem test_mtc0_supplied :
    flow (.mtc0 8 12) (withRegs { cp0Model := .supplied } 0 0) = some (4, 8, false) := rfl

/-! ### The step: `addi $2, $0, 4`, the first word of program P1, placed at `pc` -/

theorem test_step :
    stepResult (State.reset.withFetchWord 32 0x20020004) 2 = some 4 ∧
    faultOf (step State.reset) = some (.unwrittenByte 0 .fetch) := by decide

theorem test_step_unlisted :
    faultOf (step (State.reset.withFetchWord 32 0x0000000C)) =
      some (.unlistedEncoding 0x0000000C 0 .noSuchFunct) := by decide

/-- X6 of part 3: `sw $0, 0($0)` at address 0 stores into its own text; then a store into loaded text that
the run has not fetched yet. -/
theorem test_store_into_text :
    faultOf (step (State.reset.withFetchWord 32 0xAC000000)) = some (.storeIntoProgramText 0) ∧
    faultOf (exec (.sb 0 17 2) ((regs 0x100 0).placeWord 0x100 0)) =
      some (.storeIntoProgramText 0x102) := by decide

/-- After MFC0 with a spacing of 2, the first and second instruction may not use the register, the third
may. The waits are those after each step's count (45_coprocessor0.md R223, 70_reset_and_hazards.md R286). -/
theorem test_mfc0_wait :
    let s := (withRegs { cp0Model := .supplied, mfc0Delay := 2 } 0 0).startMfc0Wait 8
    checkMfc0Wait s (.mthi 8) = .fault (.mfc0Hazard 8 0) ∧
    checkMfc0Wait s.tickMfc0Wait (.mthi 8) = .fault (.mfc0Hazard 8 0) ∧
    checkMfc0Wait s.tickMfc0Wait.tickMfc0Wait (.mthi 8) = .next () := ⟨rfl, rfl, rfl⟩

theorem test_jal_link_offset :
    result (.jal 2) (withRegs { linkOffset := 4 } 0 0) 31 = some 4 ∧
    result (.jal 2) (regs 0 0) 31 = some 8 := by decide

/-! ### Witnesses: each shows that the hypotheses of the obligation it is named after are met together -/

theorem witness_DecodeEncodeRoundTrip :
    Instr.wellFormed (.sll 0 0 1) = true ∧ Instr.wellFormed (.jalr 31) = true := by decide

theorem witness_PatternTableIsTheDecoder :
    decodeWord 0x02328020#32 = .ok (.add 16 17 18) ∧
    Instr.jr 0#5 ∈ Instr.rows ∧ (Instr.jr 0#5).pattern.matches 0x03FFF808#32 ∧
    Instr.sll 0#5 0#5 0#5 ∈ Instr.rows ∧ (Instr.sll 0#5 0#5 0#5).pattern.matches 0 ∧
    Instr.nop ∈ Instr.rows ∧ Instr.nop.pattern.matches 0 := by decide

theorem witness_ByteStreamDecodes : decodeWord 0xAE300014#32 = .ok (.sw 16 17 20) := by decide

/-- The word `addi $2, $0, 4` at the last aligned address of the space. -/
def fetching : State := (atPc 0xFFFFFFFC 0).withFetchWord 32 0x20020004

theorem witness_StepRunsTheDecodedInstruction :
    fetching.cfg.loadDelay = 0 ∧ fetching.cfg.hiloDelay = 0 ∧ fetching.cfg.interrupts = .none ∧
    fetching.pc.toNat % 4 = 0 ∧
    byteAt? fetching.mem fetching.pc.toNat = some 0x04 ∧
    byteAt? fetching.mem (fetching.pc + 1).toNat = some 0x00 ∧
    byteAt? fetching.mem (fetching.pc + 2).toNat = some 0x02 ∧
    byteAt? fetching.mem (fetching.pc + 3).toNat = some 0x20 ∧
    regionAt fetching.cfg.memMap fetching.pc.toNat = some .ram ∧
    regionAt fetching.cfg.memMap (fetching.pc + 1).toNat = some .ram ∧
    regionAt fetching.cfg.memMap (fetching.pc + 2).toNat = some .ram ∧
    regionAt fetching.cfg.memMap (fetching.pc + 3).toNat = some .ram ∧
    (∀ k, k < 4 → fetching.pc.toNat + k ∈ fetching.cfg.programText) ∧
    decodeWord (wordOf fetching.cfg.byteOrder 0x04 0x00 0x02 0x20) = .ok (.addi 2 0 4) ∧
    (∀ r ∈ sources (.addi 2 0 4), waitOf fetching.mfc0Wait r = 0) := by decide

/-- A word in shared memory may read as any word that decodes: where it reads as this one, all hypotheses
of StepRunsTheDecodedInstruction are met. -/
def sharedText : State :=
  withRegs { memMap := [⟨0, 4, .shared⟩], programText := [0, 1, 2, 3] } 0 0

theorem witness_StepRunsTheDecodedInstruction_shared :
    sharedText.pc.toNat % 4 = 0 ∧
    (∀ k, k < 4 → regionAt sharedText.cfg.memMap (sharedText.pc + BitVec.ofNat 32 k).toNat =
      some .shared) ∧ (∀ k, k < 4 → sharedText.pc.toNat + k ∈ sharedText.cfg.programText) ∧
    drawsAfter sharedText sharedText.pc 4 = 1 := by decide

theorem witness_StepStopsBeforeExecuting_delays :
    (withRegs { loadDelay := 1 } 0 0).cfg.loadDelay ≠ 0 ∧
    (withRegs { hiloDelay := 1 } 0 0).cfg.hiloDelay ≠ 0 := by decide

theorem witness_StepStopsBeforeExecuting_interrupts :
    (withRegs { interrupts := .possible } 0 0).cfg.loadDelay = 0 ∧
    (withRegs { interrupts := .possible } 0 0).cfg.hiloDelay = 0 ∧
    (withRegs { interrupts := .possible } 0 0).cfg.interrupts = .possible := by decide

theorem witness_StepStopsBeforeExecuting_misaligned :
    (atPc 0xFFFFFFFF 0).cfg.loadDelay = 0 ∧ (atPc 0xFFFFFFFF 0).cfg.hiloDelay = 0 ∧
    (atPc 0xFFFFFFFF 0).cfg.interrupts = .none ∧
    (atPc 0xFFFFFFFF 0).pc.toNat % 4 ≠ 0 ∧ (atPc 1 0).pc.toNat % 4 ≠ 0 := by decide

/-- Only the last byte of the word at 0 is absent. -/
def shortMap : State := withRegs { memMap := [⟨0, 3, .ram⟩] } 0 0

theorem witness_StepStopsBeforeExecuting_absent :
    shortMap.cfg.loadDelay = 0 ∧ shortMap.cfg.hiloDelay = 0 ∧ shortMap.cfg.interrupts = .none ∧
    shortMap.pc.toNat % 4 = 0 ∧
    regionAt shortMap.cfg.memMap (shortMap.pc.toNat + 2) = some .ram ∧
    regionAt shortMap.cfg.memMap (shortMap.pc.toNat + 3) = none := by decide

/-- A word whose last byte is a device's. -/
def deviceEnd : State := withRegs { memMap := [⟨0, 3, .ram⟩, ⟨3, 1, .device⟩] } 0 0

theorem witness_StepStopsBeforeExecuting_device :
    deviceEnd.cfg.loadDelay = 0 ∧ deviceEnd.cfg.hiloDelay = 0 ∧ deviceEnd.cfg.interrupts = .none ∧
    deviceEnd.pc.toNat % 4 = 0 ∧
    (∀ k, k < 4 → regionAt deviceEnd.cfg.memMap (deviceEnd.pc.toNat + k) ≠ none) ∧
    regionAt deviceEnd.cfg.memMap (deviceEnd.pc.toNat + 3) = some .device := by decide

/-- A word of which only the last byte is missing, its third shared. -/
def gapped : State :=
  { withRegs { memMap := [⟨0, 2, .ram⟩, ⟨2, 1, .shared⟩, ⟨3, 1, .ram⟩] } 0 0 with
    mem := [(0, 0x04), (1, 0x00)] }

theorem witness_StepStopsBeforeExecuting_unwritten :
    gapped.cfg.loadDelay = 0 ∧ gapped.cfg.hiloDelay = 0 ∧ gapped.cfg.interrupts = .none ∧
    gapped.pc.toNat % 4 = 0 ∧
    (∀ k, k < 4 → regionAt gapped.cfg.memMap (gapped.pc + BitVec.ofNat 32 k).toNat = some .ram ∨
      regionAt gapped.cfg.memMap (gapped.pc + BitVec.ofNat 32 k).toNat = some .shared) ∧
    regionAt gapped.cfg.memMap (gapped.pc.toNat + 3) = some .ram ∧
    byteAt? gapped.mem (gapped.pc.toNat + 3) = none := by decide

/-- A readable word of which the configuration counts all bytes but the last to the program text. -/
def halfDeclared : State :=
  { withRegs { programText := [0, 1, 2] } 0 0 with mem := [(0, 0x04), (1, 0x00), (2, 0x02), (3, 0x20)] }

theorem witness_StepStopsBeforeExecuting_outside_text :
    halfDeclared.cfg.loadDelay = 0 ∧ halfDeclared.cfg.hiloDelay = 0 ∧
    halfDeclared.cfg.interrupts = .none ∧ halfDeclared.pc.toNat % 4 = 0 ∧
    (∀ k, k < 4 → regionAt halfDeclared.cfg.memMap (halfDeclared.pc + BitVec.ofNat 32 k).toNat =
      some .ram ∧ byteAt? halfDeclared.mem (halfDeclared.pc + BitVec.ofNat 32 k).toNat ≠ none) ∧
    halfDeclared.pc.toNat + 3 ∉ halfDeclared.cfg.programText := by decide

/-- `mthi $8` while register 8 waits for its MFC0. -/
def waiting : State :=
  ((withRegs { cp0Model := .supplied, mfc0Delay := 1 } 0 0).withFetchWord 32 0x01000011).startMfc0Wait 8

theorem witness_StepStopsBeforeExecuting_hazard :
    waiting.cfg.loadDelay = 0 ∧ waiting.cfg.hiloDelay = 0 ∧ waiting.cfg.interrupts = .none ∧
    fetch waiting = .next 0x01000011 ∧
    decodeWord 0x01000011#32 = .ok (.mthi 8) ∧ (8 : Reg) ∈ sources (.mthi 8) ∧
    waitOf waiting.mfc0Wait 8 ≠ 0 := ⟨rfl, rfl, rfl, rfl, by decide, by decide, by decide⟩

theorem witness_StepStopsBeforeExecuting_unlisted :
    fetch (State.reset.withFetchWord 32 0x0000000C) = .next 0x0000000C ∧
    ∀ r ∈ Instr.rows, ¬ r.pattern.matches 0x0000000C := ⟨rfl, by decide⟩

/-- A next state: of a register instruction, of a control transfer, of a store. It meets the hypotheses
of EveryInstructionMovesThePc, OnlyTheListedInstructionsWriteHiLo and OnlyStoresWriteMemory. -/
theorem witness_exec_completes :
    (∃ t, exec (.add 16 17 18) (regs 1 2) = .next t) ∧ (∃ t, exec (.jal 7) (regs 1 2) = .next t) ∧
    (∃ t, exec (.sw 18 17 0) (regs 0x20000000 1) = .next t) ∧
    (∃ t, exec (.mult 17 18) (regs 0x80000000 0x80000000) = .next t ∧ t.hi ≠ (regs 0 0).hi) ∧
    (∃ t, exec (.mthi 17) (regs 5 0) = .next t ∧ t.hi ≠ (regs 5 0).hi) ∧
    (∃ t, exec (.mtlo 17) (regs 5 0) = .next t ∧ t.lo ≠ (regs 5 0).lo) :=
  ⟨⟨_, rfl⟩, ⟨_, rfl⟩, ⟨_, rfl⟩, ⟨_, rfl, by decide⟩, ⟨_, rfl, by decide⟩, ⟨_, rfl, by decide⟩⟩

theorem witness_ResetHasTheInvariant :
    Ascending sharedText.cfg.programText ∧ Memory.wf (loaded Config.standard).mem := by decide

theorem witness_reset_placed_invariant :
    (State.reset.withFetchWord 32 0x20020004).Inv := ⟨by decide, by decide, fun _ => rfl⟩

theorem witness_EveryStepKeepsTheInvariant :
    (State.reset.withFetchWord 32 0x20020004).Inv ∧
    ∃ t, step (State.reset.withFetchWord 32 0x20020004) = .next t :=
  ⟨witness_reset_placed_invariant, _, rfl⟩

theorem witness_ProgramTextIsImmutable :
    (∃ t, RunsTo 1 fetching t) ∧ 4294967295 ∈ fetching.cfg.programText ∧ ∃ t, step fetching = .next t :=
  ⟨⟨_, rfl⟩, by decide, _, rfl⟩

theorem witness_NoStepChangesTheConfiguration : ∃ t, RunsTo 1 fetching t := ⟨_, rfl⟩

theorem witness_OnlyTheDestinationRegisterChanges :
    (∃ t, exec (.jal 7) (regs 1 2) = .next t) ∧ destination (.jal 7) ≠ some 30 ∧
    destination (.sw 18 17 0) ≠ some 18 := ⟨⟨_, rfl⟩, by decide, by decide⟩

theorem witness_RegisterZeroDiscardsWrites :
    (∃ t, exec (.addi 0 0 5) (regs 1 2) = .next t) ∧ destination (.addi 0 0 5) = some 0 :=
  ⟨⟨_, rfl⟩, by decide⟩

theorem witness_OnlySourceRegistersMatter :
    (16 : Reg) ∉ sources (.add 16 17 18) ∧ destination (.add 16 17 18) = some 16 ∧
    ∃ t, exec (.add 16 17 18) (regs 1 2) = .next t := ⟨by decide, by decide, _, rfl⟩

theorem witness_OnlyTheTwoMovesReachCoprocessor0 :
    (∀ rt rd, Instr.nop ≠ .mfc0 rt rd ∧ Instr.nop ≠ .mtc0 rt rd) ∧ ∃ t, exec .nop (regs 0 0) = .next t :=
  ⟨fun _ _ => ⟨nofun, nofun⟩, _, rfl⟩

theorem witness_SignedAddSubResultsWrap : (regs 0x7FFFFFFF 1).cfg.overflow = .wrap := by decide

/-- Sums and differences at both bounds and one beyond each. -/
theorem witness_SignedAddSubRefuseOverflow :
    (withRegs { overflow := .refuse } 0x7FFFFFFF 1).cfg.overflow = .refuse ∧
    ((regs 0x7FFFFFFF 1).reg 17).toInt + ((regs 0x7FFFFFFF 1).reg 18).toInt = 2147483648 ∧
    ((regs 0x7FFFFFFF 0).reg 17).toInt + ((regs 0x7FFFFFFF 0).reg 18).toInt = 2147483647 ∧
    ((regs 0x80000000 0).reg 17).toInt + (0xFFFF : Imm).toInt = -2147483649 ∧
    ((regs 0x80000000 0).reg 17).toInt + (0 : Imm).toInt = -2147483648 ∧
    ((regs 0x80000000 1).reg 17).toInt - ((regs 0x80000000 1).reg 18).toInt = -2147483649 ∧
    ((regs 0x80000001 1).reg 17).toInt - ((regs 0x80000001 1).reg 18).toInt = -2147483648 := by decide

theorem witness_ConstantShiftResults :
    0b000000#6 ++ (1 : Reg) ++ (0 : Reg) ++ (0 : Reg) ++ (0 : Shamt) ++ 0b000000#6 ≠ 0#32 ∧
    0b000000#6 ++ (0 : Reg) ++ (0 : Reg) ++ (0 : Reg) ++ (31 : Shamt) ++ 0b000000#6 ≠ 0#32 ∧
    0b000000#6 ++ (0 : Reg) ++ (0 : Reg) ++ (0 : Reg) ++ (0 : Shamt) ++ 0b000000#6 = 0#32 := by decide

theorem witness_VariableShiftResults :
    0 = ((regs 0x20 0).reg 17).toNat % 32 ∧ 31 = ((regs 0xFFFFFFFF 0).reg 17).toNat % 32 := by decide

theorem witness_SignedDivisionResults :
    (regs 0x80000000 0xFFFFFFFF).reg 18 ≠ 0 ∧
    ¬ ((regs 0x80000001 0xFFFFFFFF).reg 17 = 0x80000000#32 ∧
      (regs 0x80000001 0xFFFFFFFF).reg 18 = 0xFFFFFFFF#32) ∧
    ¬ ((regs 0x80000000 1).reg 17 = 0x80000000#32 ∧ (regs 0x80000000 1).reg 18 = 0xFFFFFFFF#32) ∧
    (regs 0x80000000 0xFFFFFFFF).reg 17 = 0x80000000#32 ∧
    (regs 0x80000000 0xFFFFFFFF).reg 18 = 0xFFFFFFFF#32 ∧
    (regs 0x80000000 0xFFFFFFFF).cfg.divOverflow = .fixed ∧
    (withRegs { divOverflow := .draw } 0x80000000 0xFFFFFFFF).cfg.divOverflow = .draw := by decide

theorem witness_UnsignedDivisionResults : (regs 0xFFFFFFFF 1).reg 18 ≠ 0 := by decide

theorem witness_DivisionByZeroDraws :
    (regs 5 0).reg 18 = 0 ∧ (.div 17 18 : Instr) ∈ [(.div 17 18 : Instr), .divu 17 18] ∧
    (.divu 17 18 : Instr) ∈ [(.div 17 18 : Instr), .divu 17 18] := by decide

/-- Outside a delay slot: the hypothesis of EqualityBranches, SignBranches, RegionJumps and RegisterJumps,
whose further one is met by register 30. -/
theorem witness_outside_a_delay_slot :
    (regs 0x80000000 0).inDelaySlot = false ∧ (30 : Reg) ≠ 31 := by decide

theorem witness_ControlTransferInDelaySlotStops :
    isControlTransfer (.jalr 31) = true ∧ { regs 0 0 with inDelaySlot := true }.inDelaySlot = true ∧
    (regs 0 0).inDelaySlot = false := by decide

theorem witness_BranchAndJumpTargetsAreAligned :
    isControlTransfer (.beq 0 0 0xFFFF) = true ∧ (atPc 0xFFFFFFFC 0).pc.toNat % 4 = 0 ∧
    (atPc 0xFFFFFFFC 0).npc.toNat % 4 = 0 ∧
    (∀ rs, Instr.beq 0 0 0xFFFF ≠ .jr rs ∧ Instr.beq 0 0 0xFFFF ≠ .jalr rs) ∧
    ∃ t, exec (.beq 0 0 0xFFFF) (atPc 0xFFFFFFFC 0) = .next t :=
  ⟨by decide, by decide, by decide, fun _ => ⟨nofun, nofun⟩, _, rfl⟩

theorem witness_CallReturnsAfterItsDelaySlot :
    ∃ t u v, exec (.jal 7) (regs 0 0) = .next t ∧ destination .nop ≠ some 31 ∧ exec .nop t = .next u ∧
      exec (.jr 31) u = .next v := ⟨_, _, _, rfl, by decide, rfl, rfl⟩

/-- The four bytes of 2.6 are ram and hold values; their address is a multiple of 4. It meets the
hypotheses of LoadByteResults, LoadHalfwordResults and LoadWordResult. -/
theorem witness_loads :
    (loaded {}).ea 17 0 = 0x20000000 ∧ (0x20000000 : Word).toNat % 4 = 0 ∧
    (byteAt? (loaded {}).mem 0x20000000 = some 0x84 ∧
      regionAt (loaded {}).cfg.memMap 0x20000000 = some .ram) ∧
    (byteAt? (loaded {}).mem 0x20000001 = some 0x7F ∧
      regionAt (loaded {}).cfg.memMap 0x20000001 = some .ram) ∧
    (byteAt? (loaded {}).mem 0x20000002 = some 0x82 ∧
      regionAt (loaded {}).cfg.memMap 0x20000002 = some .ram) ∧
    (byteAt? (loaded {}).mem 0x20000003 = some 0x81 ∧
      regionAt (loaded {}).cfg.memMap 0x20000003 = some .ram) := by decide

/-- A shared word at the top of the address space. -/
def sharing : State := withRegs { memMap := [⟨0xFFFFFFFC, 4, .shared⟩] } 0xFFFFFFFC 0

/-- All four bytes shared, at the top of the space; then a word of two bytes of ram that hold values, one
shared byte and one more of ram. -/
theorem witness_LoadsFromSharedMemoryComplete :
    (sharing.ea 17 0).toNat % 4 = 0 ∧
    (∀ k, k < 4 → regionAt sharing.cfg.memMap (sharing.ea 17 0 + BitVec.ofNat 32 k).toNat = some .shared) ∧
    regionAt sharing.cfg.memMap (sharing.ea 17 3).toNat = some .shared ∧
    drawsAfter sharing (sharing.ea 17 0) 4 = 1 ∧
    (gapped.ea 0 2).toNat % 2 = 0 ∧ regionAt gapped.cfg.memMap (gapped.ea 0 2).toNat = some .shared ∧
    regionAt gapped.cfg.memMap (gapped.ea 0 2 + 1).toNat = some .ram ∧
    byteAt? { gapped with mem := [(3, 0x20)] }.mem (gapped.ea 0 2 + 1).toNat = some 0x20 := by decide

theorem witness_LoadIntoZeroPerformsItsAccess :
    (loads 0 17 0)[4]? = some (.lw 0 17 0, 4) ∧ (loads 16 17 0)[4]? = some (.lw 16 17 0, 4) ∧
    (loads 0 17 0)[0]? = some (.lb 0 17 0, 1) ∧ (loads 16 17 0)[0]? = some (.lb 16 17 0, 1) ∧
    ∃ t, exec (.lw 0 17 0) (loaded {}) = .next t := ⟨rfl, rfl, rfl, rfl, _, rfl⟩

/-- A word at the top of the space in memory, shared memory here, and not text. It meets the hypotheses of
StoreByteResult, StoreHalfwordResult and StoreWordResult. -/
theorem witness_stores :
    (sharing.ea 17 0).toNat % 4 = 0 ∧
    (∀ k, k < 4 → regionAt sharing.cfg.memMap (sharing.ea 17 0 + BitVec.ofNat 32 k).toNat = some .shared) ∧
    (∀ k, k < 4 → (sharing.ea 17 0).toNat + k ∉ sharing.cfg.programText) ∧
    (sharing.ea 17 3).toNat ∉ sharing.cfg.programText := by decide

theorem witness_LoadSeesTheLatestStore :
    (∀ j, j < 4 → regionAt (regs 0x20000000 1).cfg.memMap (((regs 0x20000000 1).ea 17 0).toNat + j) =
      some .ram) ∧
    ∃ t, exec (.sw 18 17 0) (regs 0x20000000 1) = .next t ∧
      t.ea 17 0 = (regs 0x20000000 1).ea 17 0 ∧
      t.ea 17 3 = (regs 0x20000000 1).ea 17 0 + BitVec.ofNat 32 3 := ⟨by decide, _, rfl, rfl, rfl⟩

theorem witness_MisalignedAccessesStop :
    ((regs 0xFFFFFFFF 0).ea 17 0).toNat % 2 ≠ 0 ∧ ((regs 0xFFFFFFFE 0).ea 17 0).toNat % 4 ≠ 0 ∧
    ((regs 1 0).ea 17 0).toNat % 4 ≠ 0 := by decide

theorem witness_AccessesOutsideMemoryStop :
    (.lw 16 0 0, 4) ∈ loads 16 0 0 ∧ (.sw 16 0 0, 4) ∈ stores 16 0 0 ∧
    (shortMap.ea 0 0).toNat % 4 = 0 ∧ regionAt shortMap.cfg.memMap ((shortMap.ea 0 0).toNat + 3) = none ∧
    (deviceEnd.ea 0 0).toNat % 4 = 0 ∧
    (∀ k, k < 4 → regionAt deviceEnd.cfg.memMap ((deviceEnd.ea 0 0).toNat + k) ≠ none) ∧
    regionAt deviceEnd.cfg.memMap ((deviceEnd.ea 0 0).toNat + 3) = some .device := by decide

theorem witness_StoresIntoTextAndUnwrittenReadsStop :
    (.sw 16 0 0, 4) ∈ stores 16 0 0 ∧ (sharedText.ea 0 0).toNat % 4 = 0 ∧
    (∀ k, k < 4 → regionAt sharedText.cfg.memMap (sharedText.ea 0 0 + BitVec.ofNat 32 k).toNat =
      some .shared) ∧ (sharedText.ea 0 0).toNat + 3 ∈ sharedText.cfg.programText ∧
    (.lw 16 0 0, 4) ∈ loads 16 0 0 ∧ (gapped.ea 0 0).toNat % 4 = 0 ∧
    (∀ k, k < 4 → regionAt gapped.cfg.memMap (gapped.ea 0 0 + BitVec.ofNat 32 k).toNat = some .ram ∨
      regionAt gapped.cfg.memMap (gapped.ea 0 0 + BitVec.ofNat 32 k).toNat = some .shared) ∧
    regionAt gapped.cfg.memMap ((gapped.ea 0 0).toNat + 3) = some .ram ∧
    byteAt? gapped.mem ((gapped.ea 0 0).toNat + 3) = none ∧
    (∀ j, j < 3 → regionAt gapped.cfg.memMap ((gapped.ea 0 0).toNat + j) = some .shared ∨
      byteAt? gapped.mem ((gapped.ea 0 0).toNat + j) ≠ none) := by decide

theorem witness_OpaqueCoprocessor0Stops : (regs 0 0).cfg.cp0Model = .opaqueCp0 := by decide

theorem witness_SuppliedCoprocessor0Moves :
    (withRegs { cp0Model := .supplied } 0 0).cfg.cp0Model = .supplied := by decide

end Sys2Proof.Tests
end

section
/-! PROOFS. The set-on-less-than instructions (40_arithmetic.md R114 to R117, R121), after three facts
that every instruction of its kind shares: where the decoder sends a word of opcode 000000, what an
instruction that ends in `writeResult` changes, and the words the comparisons deliver. -/

namespace Sys2Proof.Proofs

open Sys2Proof.Machine Sys2Proof.Claims

/-! ### Decoding -/

/-- Opcode 000000 with `shamt` 00000 goes to the function map, but for the three constant shifts, whose
funct takes any `shamt` (R92, R99). -/
theorem decodeWord_special {rs rt rd : Reg} {fn : BitVec 6} (hsll : fn ≠ 0x00#6) (hsrl : fn ≠ 0x02#6)
    (hsra : fn ≠ 0x03#6) :
    decodeWord (rType 0x00 rs rt rd 0 fn) = decodeFunct (rType 0x00 rs rt rd 0 fn) := by
  have hop : decodeWord (rType 0x00 rs rt rd 0 fn) = decodeSpecial (rType 0x00 rs rt rd 0 fn) := by
    simp [decodeWord]
  rw [hop, decodeSpecial]
  split <;> simp_all

theorem decodeWord_slt (rs rt rd : Reg) :
    decodeWord (rType 0x00 rs rt rd 0 0x2A) = .ok (.slt rd rs rt) := by
  rw [decodeWord_special (by decide) (by decide) (by decide)]
  simp [decodeFunct]

theorem decodeWord_sltu (rs rt rd : Reg) :
    decodeWord (rType 0x00 rs rt rd 0 0x2B) = .ok (.sltu rd rs rt) := by
  rw [decodeWord_special (by decide) (by decide) (by decide)]
  simp [decodeFunct]

theorem decodeWord_slti (rs rt : Reg) (imm : Imm) :
    decodeWord (iType 0x0A rs rt imm) = .ok (.slti rt rs imm) := by
  simp [decodeWord]

theorem decodeWord_sltiu (rs rt : Reg) (imm : Imm) :
    decodeWord (iType 0x0B rs rt imm) = .ok (.sltiu rt rs imm) := by
  simp [decodeWord]

/-! ### Results and frame -/

/-- An instruction that ends in `writeResult` meets the whole of `Writes`: the next state is the old one
with one register set and the two-register pc moved on. -/
theorem writes_of_exec_eq_writeResult {i : Instr} {s : State} {r : Reg} {v : Word}
    (h : exec i s = writeResult r v s) : Writes i s r v := by
  refine ⟨(s.setReg r v).advance, h, fun hr => ?written, fun q hq => ?others, fun a => ?memory, rfl⟩
  case written =>
    rw [advance_reg, reg_setReg]
    exact (if_neg hr).trans (if_pos rfl)
  case others =>
    rw [advance_reg, reg_setReg, if_neg hq]
    split
    · next hzero => rw [hzero, reg_zero]
    · rfl
  case memory => rw [advance_mem, setReg_mem]

/-! ### Comparisons (R121) -/

theorem boolWord_ltSigned (a b : Word) :
    boolWord (ltSigned a b) = if a.toInt < b.toInt then 1 else 0 := by
  simp [boolWord, ltSigned]

theorem boolWord_ltUnsigned (a b : Word) :
    boolWord (ltUnsigned a b) = if a.toNat < b.toNat then 1 else 0 := by
  simp [boolWord, ltUnsigned]

/-- Sign extension keeps the signed value of an immediate (R85). -/
theorem toInt_signImm (imm : Imm) : (signImm imm).toInt = imm.toInt :=
  BitVec.toInt_signExtend_of_le (by decide)

theorem writes_slt (s : State) (rd rs rt : Reg) :
    Writes (.slt rd rs rt) s rd (if (s.reg rs).toInt < (s.reg rt).toInt then 1 else 0) := by
  rw [← boolWord_ltSigned]
  exact writes_of_exec_eq_writeResult rfl

theorem writes_sltu (s : State) (rd rs rt : Reg) :
    Writes (.sltu rd rs rt) s rd (if (s.reg rs).toNat < (s.reg rt).toNat then 1 else 0) := by
  rw [← boolWord_ltUnsigned]
  exact writes_of_exec_eq_writeResult rfl

theorem writes_slti (s : State) (rt rs : Reg) (imm : Imm) :
    Writes (.slti rt rs imm) s rt (if (s.reg rs).toInt < imm.toInt then 1 else 0) := by
  rw [← toInt_signImm, ← boolWord_ltSigned]
  exact writes_of_exec_eq_writeResult rfl

/-- The immediate is sign-extended here too, and only then compared as unsigned (R117, R121). -/
theorem writes_sltiu (s : State) (rt rs : Reg) (imm : Imm) :
    Writes (.sltiu rt rs imm) s rt
      (if (s.reg rs).toNat < (imm.signExtend 32).toNat then 1 else 0) := by
  rw [← boolWord_ltUnsigned]
  exact writes_of_exec_eq_writeResult rfl

/-- Settles O22: the pattern and the result of each of the four, the frame from
`writes_of_exec_eq_writeResult`. -/
theorem setOnLessThanResults : Obligations.SetOnLessThanResults :=
  fun s rs rt rd imm =>
    ⟨decodeWord_slt rs rt rd, writes_slt s rd rs rt,
      decodeWord_sltu rs rt rd, writes_sltu s rd rs rt,
      decodeWord_slti rs rt imm, writes_slti s rt rs imm,
      decodeWord_sltiu rs rt imm, writes_sltiu s rt rs imm⟩

end Sys2Proof.Proofs
end

section
/-! PROOFS. The logical instructions OR, NOR, ANDI, ORI, XORI and LUI (41_logical.md R131 to R135, R137).
The frame of each is `writes_of_exec_eq_writeResult`; what is left is where the decoder sends its word and,
for the immediate forms, that zero extension puts sixteen zeros before the immediate. -/

namespace Sys2Proof.Proofs

open Sys2Proof.Machine Sys2Proof.Claims

/-! ### OR and NOR (R133, R134) -/

theorem decodeWord_or (rs rt rd : Reg) :
    decodeWord (rType 0x00 rs rt rd 0 0x25) = .ok (.or rd rs rt) := by
  rw [decodeWord_special (by decide) (by decide) (by decide)]
  simp [decodeFunct]

theorem decodeWord_nor (rs rt rd : Reg) :
    decodeWord (rType 0x00 rs rt rd 0 0x27) = .ok (.nor rd rs rt) := by
  rw [decodeWord_special (by decide) (by decide) (by decide)]
  simp [decodeFunct]

theorem writes_or (s : State) (rd rs rt : Reg) :
    Writes (.or rd rs rt) s rd (s.reg rs ||| s.reg rt) :=
  writes_of_exec_eq_writeResult rfl

theorem writes_nor (s : State) (rd rs rt : Reg) :
    Writes (.nor rd rs rt) s rd (~~~(s.reg rs ||| s.reg rt)) :=
  writes_of_exec_eq_writeResult rfl

/-- Settles O23: the pattern of each of the two, and its result with the frame of `Writes`. -/
theorem orNorResults : Obligations.OrNorResults :=
  fun s rs rt rd =>
    ⟨decodeWord_or rs rt rd, writes_or s rd rs rt, decodeWord_nor rs rt rd, writes_nor s rd rs rt⟩

/-! ### ANDI, ORI, XORI (R131, R135, R137) -/

/-- `ZeroImm` (R86) as the statements write it: sixteen zeros before the immediate. -/
theorem zeroImm_eq_append (imm : Imm) : zeroImm imm = 0#16 ++ imm :=
  BitVec.setWidth_eq_append (by decide)

theorem decodeWord_andi (rs rt : Reg) (imm : Imm) :
    decodeWord (iType 0x0C rs rt imm) = .ok (.andi rt rs imm) := by
  simp [decodeWord]

theorem decodeWord_ori (rs rt : Reg) (imm : Imm) :
    decodeWord (iType 0x0D rs rt imm) = .ok (.ori rt rs imm) := by
  simp [decodeWord]

theorem decodeWord_xori (rs rt : Reg) (imm : Imm) :
    decodeWord (iType 0x0E rs rt imm) = .ok (.xori rt rs imm) := by
  simp [decodeWord]

theorem writes_andi (s : State) (rt rs : Reg) (imm : Imm) :
    Writes (.andi rt rs imm) s rt (s.reg rs &&& (0#16 ++ imm)) := by
  rw [← zeroImm_eq_append]
  exact writes_of_exec_eq_writeResult rfl

theorem writes_ori (s : State) (rt rs : Reg) (imm : Imm) :
    Writes (.ori rt rs imm) s rt (s.reg rs ||| (0#16 ++ imm)) := by
  rw [← zeroImm_eq_append]
  exact writes_of_exec_eq_writeResult rfl

theorem writes_xori (s : State) (rt rs : Reg) (imm : Imm) :
    Writes (.xori rt rs imm) s rt (s.reg rs ^^^ (0#16 ++ imm)) := by
  rw [← zeroImm_eq_append]
  exact writes_of_exec_eq_writeResult rfl

/-- Settles O25: the pattern of each of the three, and its result with the frame of `Writes`. -/
theorem logicalImmediateResults : Obligations.LogicalImmediateResults :=
  fun s rs rt imm =>
    ⟨decodeWord_andi rs rt imm, writes_andi s rt rs imm,
      decodeWord_ori rs rt imm, writes_ori s rt rs imm,
      decodeWord_xori rs rt imm, writes_xori s rt rs imm⟩

/-! ### LUI (R87, R132) -/

/-- The decoder drops the `rs` field of LUI, whatever it holds. -/
theorem decodeWord_lui (x rt : Reg) (imm : Imm) :
    decodeWord (iType 0x0F x rt imm) = .ok (.lui rt imm) := by
  simp [decodeWord]

theorem writes_lui (s : State) (rt : Reg) (imm : Imm) : Writes (.lui rt imm) s rt (imm ++ 0#16) :=
  writes_of_exec_eq_writeResult rfl

/-- Settles O26: `upperImm` is the concatenation the statement writes, so LUI needs no fact about words. -/
theorem loadUpperImmediateResult : Obligations.LoadUpperImmediateResult :=
  fun s x rt imm => ⟨decodeWord_lui x rt imm, writes_lui s rt imm⟩

end Sys2Proof.Proofs
end

section
/-! PROOFS. The double-word products MULT and MULTU and the moves MFHI and MFLO (43_muldiv_hilo.md R182,
R184, R186, R187). Both products end in `setProduct`: what HI and LO hold is one fact about the 64 bits it
is given, and that the 64 bits are exact is one bound on each product. -/

namespace Sys2Proof.Proofs

open Sys2Proof.Machine Sys2Proof.Claims

/-! ### Decoding

`x` and `y` are don't-care fields: the decoder drops them, whatever they hold. -/

theorem decodeWord_mult (rs rt x : Reg) :
    decodeWord (rType 0x00 rs rt x 0 0x18) = .ok (.mult rs rt) := by
  rw [decodeWord_special (by decide) (by decide) (by decide)]
  simp [decodeFunct]

theorem decodeWord_multu (rs rt x : Reg) :
    decodeWord (rType 0x00 rs rt x 0 0x19) = .ok (.multu rs rt) := by
  rw [decodeWord_special (by decide) (by decide) (by decide)]
  simp [decodeFunct]

theorem decodeWord_mfhi (x y rd : Reg) :
    decodeWord (rType 0x00 x y rd 0 0x10) = .ok (.mfhi rd) := by
  rw [decodeWord_special (by decide) (by decide) (by decide)]
  simp [decodeFunct]

theorem decodeWord_mflo (x y rd : Reg) :
    decodeWord (rType 0x00 x y rd 0 0x12) = .ok (.mflo rd) := by
  rw [decodeWord_special (by decide) (by decide) (by decide)]
  simp [decodeFunct]

/-! ### Results and frame of the instructions that write HI and LO -/

/-- An instruction that writes HI and LO and goes on meets the whole of `WritesHiLo`. -/
theorem writesHiLo_of_exec_eq_setHiLo {i : Instr} {s : State} {h l : Word}
    (hexec : exec i s = .next (s.setHiLo h l).advance) : WritesHiLo i s h l :=
  ⟨(s.setHiLo h l).advance, hexec, rfl, rfl, rfl⟩

/-- The two halves that `setProduct` writes are the whole product, HI the upper one. -/
theorem productHalves_append (p : BitVec 64) : p.extractLsb' 32 32 ++ p.extractLsb' 0 32 = p :=
  (BitVec.extractLsb'_append_extractLsb'_eq_extractLsb' rfl).trans BitVec.extractLsb'_eq_self

/-- After an instruction that ends in `setProduct p`, HI and LO joined are `p`. -/
theorem writesHiLo_of_exec_eq_setProduct {i : Instr} {s : State} {p : BitVec 64}
    (hexec : exec i s = .next (s.setProduct p).advance) :
    ∃ h l : Word, WritesHiLo i s h l ∧ h ++ l = p :=
  ⟨p.extractLsb' 32 32, p.extractLsb' 0 32, writesHiLo_of_exec_eq_setHiLo hexec, productHalves_append p⟩

/-! ### Products (R186, R187) -/

/-- 64 bits hold every signed product exactly: its absolute value is at most `2 ^ 62`, met by the square of
the least word. -/
theorem toInt_signedProduct (a b : Word) :
    (BitVec.ofInt 64 (a.toInt * b.toInt)).toInt = a.toInt * b.toInt := by
  have hlow : -2 ^ 62 ≤ a.toInt * b.toInt := BitVec.le_toInt_mul_toInt
  have hhigh : a.toInt * b.toInt ≤ 2 ^ 62 := BitVec.toInt_mul_toInt_le
  exact BitVec.toInt_ofInt_eq_self (by decide) (by omega) (by omega)

/-- 64 bits hold every unsigned product exactly. -/
theorem toNat_unsignedProduct (a b : Word) :
    (BitVec.ofNat 64 (a.toNat * b.toNat)).toNat = a.toNat * b.toNat :=
  (BitVec.toNat_ofNat _ _).trans (Nat.mod_eq_of_lt BitVec.toNat_mul_toNat_lt)

theorem writesHiLo_mult (s : State) (rs rt : Reg) :
    ∃ h l : Word, WritesHiLo (.mult rs rt) s h l ∧
      (h ++ l).toInt = (s.reg rs).toInt * (s.reg rt).toInt := by
  obtain ⟨h, l, hwrites, hjoined⟩ := writesHiLo_of_exec_eq_setProduct (i := .mult rs rt) (s := s) rfl
  refine ⟨h, l, hwrites, ?_⟩
  rw [hjoined, toInt_signedProduct]

theorem writesHiLo_multu (s : State) (rs rt : Reg) :
    ∃ h l : Word, WritesHiLo (.multu rs rt) s h l ∧
      (h ++ l).toNat = (s.reg rs).toNat * (s.reg rt).toNat := by
  obtain ⟨h, l, hwrites, hjoined⟩ := writesHiLo_of_exec_eq_setProduct (i := .multu rs rt) (s := s) rfl
  refine ⟨h, l, hwrites, ?_⟩
  rw [hjoined, toNat_unsignedProduct]

/-- Settles O30: the pattern of each of the two, and its product, which 64 bits hold exactly. -/
theorem doubleWordProducts : Obligations.DoubleWordProducts :=
  fun s rs rt x =>
    ⟨decodeWord_mult rs rt x, writesHiLo_mult s rs rt, decodeWord_multu rs rt x, writesHiLo_multu s rs rt⟩

/-! ### MFHI and MFLO (R182, R184) -/

theorem writes_mfhi (s : State) (rd : Reg) : Writes (.mfhi rd) s rd s.hi :=
  writes_of_exec_eq_writeResult rfl

theorem writes_mflo (s : State) (rd : Reg) : Writes (.mflo rd) s rd s.lo :=
  writes_of_exec_eq_writeResult rfl

/-- Settles O35: the pattern of each of the two with both don't-care fields free, and its result with the
frame of `Writes`. -/
theorem movesFromHiLo : Obligations.MovesFromHiLo :=
  fun s r x y =>
    ⟨decodeWord_mfhi x y r, writes_mfhi s r, decodeWord_mflo x y r, writes_mflo s r⟩

end Sys2Proof.Proofs
end

section
/-! PROOFS. The shifts SLL, SRL, SRA, SLLV, SRLV, SRAV, and NOP's word (46_shift_nop.md R230 to R236). What
each kind of shift does to every bit is one lemma for any amount: the constant forms take it at the `shamt`
field, the variable forms at the low five bits of a register. -/

namespace Sys2Proof.Proofs

open Sys2Proof.Machine Sys2Proof.Claims

/-! ### Decoding -/

/-- The decoder drops the `rs` field of SLL, but for the all-zero word, which it gives to NOP (log 19). -/
theorem decodeWord_sll {x rt rd : Reg} {n : Shamt} (hword : rType 0x00#6 x rt rd n 0x00#6 ≠ 0#32) :
    decodeWord (rType 0x00#6 x rt rd n 0x00#6) = .ok (.sll rd rt n) := by
  simp [decodeWord, decodeSpecial, hword]

theorem decodeWord_zero : decodeWord 0#32 = .ok .nop := by decide

theorem decodeWord_srl (x rt rd : Reg) (n : Shamt) :
    decodeWord (rType 0x00 x rt rd n 0x02) = .ok (.srl rd rt n) := by
  simp [decodeWord, decodeSpecial]

theorem decodeWord_sra (x rt rd : Reg) (n : Shamt) :
    decodeWord (rType 0x00 x rt rd n 0x03) = .ok (.sra rd rt n) := by
  simp [decodeWord, decodeSpecial]

theorem decodeWord_sllv (rs rt rd : Reg) :
    decodeWord (rType 0x00 rs rt rd 0 0x04) = .ok (.sllv rd rt rs) := by
  rw [decodeWord_special (by decide) (by decide) (by decide)]
  simp [decodeFunct]

theorem decodeWord_srlv (rs rt rd : Reg) :
    decodeWord (rType 0x00 rs rt rd 0 0x06) = .ok (.srlv rd rt rs) := by
  rw [decodeWord_special (by decide) (by decide) (by decide)]
  simp [decodeFunct]

theorem decodeWord_srav (rs rt rd : Reg) :
    decodeWord (rType 0x00 rs rt rd 0 0x07) = .ok (.srav rd rt rs) := by
  rw [decodeWord_special (by decide) (by decide) (by decide)]
  simp [decodeFunct]

/-! ### NOP's word (R98, R102, R230) -/

/-- The `rd` field of the all-zero word is register 0. -/
theorem rd_eq_zero_of_rType_eq_zero {op fn : BitVec 6} {rs rt rd : Reg} {shamt : Shamt}
    (hword : rType op rs rt rd shamt fn = 0) : rd = 0 := by
  have hfield : fieldRd (rType op rs rt rd shamt fn) = fieldRd 0 := congrArg fieldRd hword
  rwa [fieldRd_rType] at hfield

/-- A shift into register 0 discards its result (R22), and moving on is all that NOP does. -/
theorem exec_sll_zero (s : State) (rt : Reg) (n : Shamt) : exec (.sll 0 rt n) s = exec .nop s :=
  congrArg (fun t : State => Host.Outcome.next t.advance) (setReg_zero s _)

/-! ### Every bit of a shifted word, and the frame -/

/-- Zeros come in at the bottom. -/
theorem writes_of_exec_eq_shiftLeft {i : Instr} {s : State} {r : Reg} {a : Word} {m : Nat}
    (hexec : exec i s = writeResult r (a <<< m) s) :
    ∃ v : Word, Writes i s r v ∧
      ∀ k, k < 32 → v.getLsbD k = (decide (m ≤ k) && a.getLsbD (k - m)) := by
  refine ⟨a <<< m, writes_of_exec_eq_writeResult hexec, fun k hk => ?_⟩
  rw [BitVec.getLsbD_shiftLeft, decide_eq_true hk, Bool.true_and, ← decide_not]
  simp only [Nat.not_lt]

/-- Zeros come in at the top. -/
theorem writes_of_exec_eq_ushiftRight {i : Instr} {s : State} {r : Reg} {a : Word} {m : Nat}
    (hexec : exec i s = writeResult r (a >>> m) s) :
    ∃ v : Word, Writes i s r v ∧
      ∀ k, k < 32 → v.getLsbD k = (decide (k + m < 32) && a.getLsbD (k + m)) := by
  refine ⟨a >>> m, writes_of_exec_eq_writeResult hexec, fun k _ => ?_⟩
  rw [BitVec.getLsbD_ushiftRight, Nat.add_comm m k]
  by_cases hinside : k + m < 32
  case pos => simp [hinside]
  case neg => rw [BitVec.getLsbD_of_ge a _ (by omega), Bool.and_false]

/-- Copies of bit 31 come in at the top. -/
theorem writes_of_exec_eq_sshiftRight {i : Instr} {s : State} {r : Reg} {a : Word} {m : Nat}
    (hexec : exec i s = writeResult r (a.sshiftRight m) s) :
    ∃ v : Word, Writes i s r v ∧ ∀ k, k < 32 → v.getLsbD k = a.getLsbD (min (k + m) 31) := by
  refine ⟨a.sshiftRight m, writes_of_exec_eq_writeResult hexec, fun k hk => ?_⟩
  rw [BitVec.getLsbD_sshiftRight, Nat.add_comm m k, BitVec.msb_eq_getLsbD_last]
  by_cases hinside : k + m < 32
  case pos => simp [hk, hinside, Nat.min_eq_left (Nat.le_of_lt_succ hinside)]
  case neg => simp [hk, hinside, Nat.min_eq_right (show 31 ≤ k + m by omega)]

/-! ### Constant amounts (R231, R233, R235) -/

/-- Settles O27: the patterns, the word that SLL's row shares with NOP, and every bit of each result, the
amount being the `shamt` field. -/
theorem constantShiftResults : Obligations.ConstantShiftResults := by
  intro s x rt rd n
  refine ⟨decodeWord_sll, fun hword => ⟨?zeroWordIsNop, ?nopDoesSll⟩, writes_of_exec_eq_shiftLeft rfl,
    decodeWord_srl x rt rd n, writes_of_exec_eq_ushiftRight rfl,
    decodeWord_sra x rt rd n, writes_of_exec_eq_sshiftRight rfl⟩
  case zeroWordIsNop => rw [hword, decodeWord_zero]
  case nopDoesSll => rw [rd_eq_zero_of_rType_eq_zero hword, exec_sll_zero]

/-! ### Variable amounts (R90, R232, R234, R236) -/

/-- The low five bits of a word, as a number. -/
theorem toNat_shiftAmount (v : Word) : (shiftAmount v).toNat = v.toNat % 32 :=
  BitVec.extractLsb'_toNat 0 5 v

/-- Settles O28: the patterns, and every bit of each result, the amount being `shiftAmount` of `x[rs]`. -/
theorem variableShiftResults : Obligations.VariableShiftResults := by
  intro s rs rt rd n hamount
  obtain rfl : n = (shiftAmount (s.reg rs)).toNat := hamount.trans (toNat_shiftAmount _).symm
  exact ⟨decodeWord_sllv rs rt rd, writes_of_exec_eq_shiftLeft rfl,
    decodeWord_srlv rs rt rd, writes_of_exec_eq_ushiftRight rfl,
    decodeWord_srav rs rt rd, writes_of_exec_eq_sshiftRight rfl⟩

end Sys2Proof.Proofs
end

section
/-! PROOFS. The encoder and the decoder (30_encoding.md R80 to R103): where the decoder sends the words of
every row, the round trip, the pattern table, and a byte stream in either byte order. -/

namespace Sys2Proof.Proofs

open Sys2Proof.Machine Sys2Proof.Claims

/-! ### Where the decoder sends a word of each row

A field the instruction has no operand for is a variable of its own: the decoder drops it, whatever it
holds (R96). -/

theorem decodeWord_add (rs rt rd : Reg) :
    decodeWord (rType 0x00 rs rt rd 0 0x20) = .ok (.add rd rs rt) := by
  rw [decodeWord_special (by decide) (by decide) (by decide)]
  simp [decodeFunct]

theorem decodeWord_addu (rs rt rd : Reg) :
    decodeWord (rType 0x00 rs rt rd 0 0x21) = .ok (.addu rd rs rt) := by
  rw [decodeWord_special (by decide) (by decide) (by decide)]
  simp [decodeFunct]

theorem decodeWord_sub (rs rt rd : Reg) :
    decodeWord (rType 0x00 rs rt rd 0 0x22) = .ok (.sub rd rs rt) := by
  rw [decodeWord_special (by decide) (by decide) (by decide)]
  simp [decodeFunct]

theorem decodeWord_subu (rs rt rd : Reg) :
    decodeWord (rType 0x00 rs rt rd 0 0x23) = .ok (.subu rd rs rt) := by
  rw [decodeWord_special (by decide) (by decide) (by decide)]
  simp [decodeFunct]

theorem decodeWord_and (rs rt rd : Reg) :
    decodeWord (rType 0x00 rs rt rd 0 0x24) = .ok (.and rd rs rt) := by
  rw [decodeWord_special (by decide) (by decide) (by decide)]
  simp [decodeFunct]

theorem decodeWord_xor (rs rt rd : Reg) :
    decodeWord (rType 0x00 rs rt rd 0 0x26) = .ok (.xor rd rs rt) := by
  rw [decodeWord_special (by decide) (by decide) (by decide)]
  simp [decodeFunct]

theorem decodeWord_jr (rs x y : Reg) : decodeWord (rType 0x00 rs x y 0 0x08) = .ok (.jr rs) := by
  rw [decodeWord_special (by decide) (by decide) (by decide)]
  simp [decodeFunct]

theorem decodeWord_jalr (rs x y : Reg) : decodeWord (rType 0x00 rs x y 0 0x09) = .ok (.jalr rs) := by
  rw [decodeWord_special (by decide) (by decide) (by decide)]
  simp [decodeFunct]

theorem decodeWord_mthi (rs x y : Reg) : decodeWord (rType 0x00 rs x y 0 0x11) = .ok (.mthi rs) := by
  rw [decodeWord_special (by decide) (by decide) (by decide)]
  simp [decodeFunct]

theorem decodeWord_mtlo (rs x y : Reg) : decodeWord (rType 0x00 rs x y 0 0x13) = .ok (.mtlo rs) := by
  rw [decodeWord_special (by decide) (by decide) (by decide)]
  simp [decodeFunct]

theorem decodeWord_div (rs rt x : Reg) : decodeWord (rType 0x00 rs rt x 0 0x1A) = .ok (.div rs rt) := by
  rw [decodeWord_special (by decide) (by decide) (by decide)]
  simp [decodeFunct]

theorem decodeWord_divu (rs rt x : Reg) : decodeWord (rType 0x00 rs rt x 0 0x1B) = .ok (.divu rs rt) := by
  rw [decodeWord_special (by decide) (by decide) (by decide)]
  simp [decodeFunct]

theorem decodeWord_addi (rs rt : Reg) (imm : Imm) :
    decodeWord (iType 0x08 rs rt imm) = .ok (.addi rt rs imm) := by
  simp [decodeWord]

theorem decodeWord_addiu (rs rt : Reg) (imm : Imm) :
    decodeWord (iType 0x09 rs rt imm) = .ok (.addiu rt rs imm) := by
  simp [decodeWord]

theorem decodeWord_beq (rs rt : Reg) (imm : Imm) :
    decodeWord (iType 0x04 rs rt imm) = .ok (.beq rs rt imm) := by
  simp [decodeWord]

theorem decodeWord_bne (rs rt : Reg) (imm : Imm) :
    decodeWord (iType 0x05 rs rt imm) = .ok (.bne rs rt imm) := by
  simp [decodeWord]

theorem decodeWord_blez (rs x : Reg) (imm : Imm) :
    decodeWord (iType 0x06 rs x imm) = .ok (.blez rs imm) := by
  simp [decodeWord]

theorem decodeWord_bgtz (rs x : Reg) (imm : Imm) :
    decodeWord (iType 0x07 rs x imm) = .ok (.bgtz rs imm) := by
  simp [decodeWord]

theorem decodeWord_bltz (rs : Reg) (imm : Imm) :
    decodeWord (iType 0x01 rs 0 imm) = .ok (.bltz rs imm) := by
  simp [decodeWord, decodeBranchZero]

theorem decodeWord_bgez (rs : Reg) (imm : Imm) :
    decodeWord (iType 0x01 rs 1 imm) = .ok (.bgez rs imm) := by
  simp [decodeWord, decodeBranchZero]

theorem decodeWord_j (addr : JumpField) : decodeWord (jType 0x02 addr) = .ok (.j addr) := by
  simp [decodeWord]

theorem decodeWord_jal (addr : JumpField) : decodeWord (jType 0x03 addr) = .ok (.jal addr) := by
  simp [decodeWord]

theorem decodeWord_mul (rs rt rd : Reg) :
    decodeWord (rType 0x1C rs rt rd 0 0x02) = .ok (.mul rd rs rt) := by
  simp [decodeWord, decodeMul]

theorem decodeWord_lb (rs rt : Reg) (imm : Imm) :
    decodeWord (iType 0x20 rs rt imm) = .ok (.lb rt rs imm) := by
  simp [decodeWord]

theorem decodeWord_lh (rs rt : Reg) (imm : Imm) :
    decodeWord (iType 0x21 rs rt imm) = .ok (.lh rt rs imm) := by
  simp [decodeWord]

theorem decodeWord_lw (rs rt : Reg) (imm : Imm) :
    decodeWord (iType 0x23 rs rt imm) = .ok (.lw rt rs imm) := by
  simp [decodeWord]

theorem decodeWord_lbu (rs rt : Reg) (imm : Imm) :
    decodeWord (iType 0x24 rs rt imm) = .ok (.lbu rt rs imm) := by
  simp [decodeWord]

theorem decodeWord_lhu (rs rt : Reg) (imm : Imm) :
    decodeWord (iType 0x25 rs rt imm) = .ok (.lhu rt rs imm) := by
  simp [decodeWord]

theorem decodeWord_sb (rs rt : Reg) (imm : Imm) :
    decodeWord (iType 0x28 rs rt imm) = .ok (.sb rt rs imm) := by
  simp [decodeWord]

theorem decodeWord_sh (rs rt : Reg) (imm : Imm) :
    decodeWord (iType 0x29 rs rt imm) = .ok (.sh rt rs imm) := by
  simp [decodeWord]

theorem decodeWord_sw (rs rt : Reg) (imm : Imm) :
    decodeWord (iType 0x2B rs rt imm) = .ok (.sw rt rs imm) := by
  simp [decodeWord]

theorem decodeWord_mfc0 (rt rd : Reg) :
    decodeWord (rType 0x10 0 rt rd 0 0) = .ok (.mfc0 rt rd) := by
  simp [decodeWord, decodeCop0]

theorem decodeWord_mtc0 (rt rd : Reg) :
    decodeWord (rType 0x10 4 rt rd 0 0) = .ok (.mtc0 rt rd) := by
  simp [decodeWord, decodeCop0]

/-! ### The round trip (R99, R103) -/

/-- An all-zero R-type word has its three register-or-amount fields zero. -/
theorem fields_eq_zero_of_rType_eq_zero {op fn : BitVec 6} {rs rt rd : Reg} {shamt : Shamt}
    (hword : rType op rs rt rd shamt fn = 0) : rd = 0 ∧ rt = 0 ∧ shamt = 0 := by
  have hrt : fieldRt (rType op rs rt rd shamt fn) = fieldRt 0 := congrArg fieldRt hword
  have hshamt : fieldShamt (rType op rs rt rd shamt fn) = fieldShamt 0 := congrArg fieldShamt hword
  rw [fieldRt_rType] at hrt
  rw [fieldShamt_rType] at hshamt
  exact ⟨rd_eq_zero_of_rType_eq_zero hword, hrt, hshamt⟩

/-- The canonical word of a well-formed SLL is not NOP's. -/
theorem encode_sll_ne_zero {rd rt : Reg} {n : Shamt} (hwf : (Instr.sll rd rt n).wellFormed = true) :
    rType 0x00#6 0#5 rt rd n 0x00#6 ≠ 0#32 := by
  intro hword
  obtain ⟨rfl, rfl, rfl⟩ := fields_eq_zero_of_rType_eq_zero hword
  exact absurd hwf (by decide)

/-- Settles O2: each constructor's canonical word lies in its row, where the decoder's lemma gives the
instruction back; only SLL needs that its word is not NOP's. -/
theorem decodeEncodeRoundTrip : Obligations.DecodeEncodeRoundTrip := by
  intro i hwf
  cases i with
  | add rd rs rt => exact decodeWord_add rs rt rd
  | addu rd rs rt => exact decodeWord_addu rs rt rd
  | addi rt rs imm => exact decodeWord_addi rs rt imm
  | addiu rt rs imm => exact decodeWord_addiu rs rt imm
  | slt rd rs rt => exact decodeWord_slt rs rt rd
  | sltu rd rs rt => exact decodeWord_sltu rs rt rd
  | slti rt rs imm => exact decodeWord_slti rs rt imm
  | sltiu rt rs imm => exact decodeWord_sltiu rs rt imm
  | sub rd rs rt => exact decodeWord_sub rs rt rd
  | subu rd rs rt => exact decodeWord_subu rs rt rd
  | and rd rs rt => exact decodeWord_and rs rt rd
  | andi rt rs imm => exact decodeWord_andi rs rt imm
  | lui rt imm => exact decodeWord_lui 0 rt imm
  | nor rd rs rt => exact decodeWord_nor rs rt rd
  | or rd rs rt => exact decodeWord_or rs rt rd
  | ori rt rs imm => exact decodeWord_ori rs rt imm
  | xor rd rs rt => exact decodeWord_xor rs rt rd
  | xori rt rs imm => exact decodeWord_xori rs rt imm
  | beq rs rt imm => exact decodeWord_beq rs rt imm
  | bne rs rt imm => exact decodeWord_bne rs rt imm
  | bgez rs imm => exact decodeWord_bgez rs imm
  | bgtz rs imm => exact decodeWord_bgtz rs 0 imm
  | blez rs imm => exact decodeWord_blez rs 0 imm
  | bltz rs imm => exact decodeWord_bltz rs imm
  | j addr => exact decodeWord_j addr
  | jal addr => exact decodeWord_jal addr
  | jr rs => exact decodeWord_jr rs 0 0
  | jalr rs => exact decodeWord_jalr rs 0 31
  | div rs rt => exact decodeWord_div rs rt 0
  | divu rs rt => exact decodeWord_divu rs rt 0
  | mfhi rd => exact decodeWord_mfhi 0 0 rd
  | mthi rs => exact decodeWord_mthi rs 0 0
  | mflo rd => exact decodeWord_mflo 0 0 rd
  | mtlo rs => exact decodeWord_mtlo rs 0 0
  | mult rs rt => exact decodeWord_mult rs rt 0
  | multu rs rt => exact decodeWord_multu rs rt 0
  | mul rd rs rt => exact decodeWord_mul rs rt rd
  | lb rt rs imm => exact decodeWord_lb rs rt imm
  | lbu rt rs imm => exact decodeWord_lbu rs rt imm
  | lh rt rs imm => exact decodeWord_lh rs rt imm
  | lhu rt rs imm => exact decodeWord_lhu rs rt imm
  | lw rt rs imm => exact decodeWord_lw rs rt imm
  | sb rt rs imm => exact decodeWord_sb rs rt imm
  | sh rt rs imm => exact decodeWord_sh rs rt imm
  | sw rt rs imm => exact decodeWord_sw rs rt imm
  | mfc0 rt rd => exact decodeWord_mfc0 rt rd
  | mtc0 rt rd => exact decodeWord_mtc0 rt rd
  | nop => exact decodeWord_zero
  | sll rd rt n => exact decodeWord_sll (encode_sll_ne_zero hwf)
  | sllv rd rt rs => exact decodeWord_sllv rs rt rd
  | srl rd rt n => exact decodeWord_srl 0 rt rd n
  | srlv rd rt rs => exact decodeWord_srlv rs rt rd
  | sra rd rt n => exact decodeWord_sra 0 rt rd n
  | srav rd rt rs => exact decodeWord_srav rs rt rd

/-- Settles O1: each of the twelve words evaluates. -/
theorem writtenWordsDecode : Obligations.WrittenWordsDecode := by
  unfold Obligations.WrittenWordsDecode
  decide

end Sys2Proof.Proofs
end

section
/-! PROOFS. The pattern table is the decoder (30_encoding.md R95 to R99), and an instruction stream decodes
word by word (R80; 20_memory.md R52). A word of a row is rebuilt from its fields, where the decoder's lemma
for that row applies; the other way round, each branch of the decoder names the fields that the mask of its
row compares. -/

namespace Sys2Proof.Proofs

open Sys2Proof.Machine Sys2Proof.Claims

/-! ### A word of a row, rebuilt from its free fields -/

theorem eq_rType_of_mask_funct {w b : Word} (hb : b &&& 0xFC0007FF#32 = b)
    (hmatches : w &&& 0xFC0007FF#32 = b) :
    ∃ rs rt rd, w = rType (opcode b) rs rt rd (fieldShamt b) (funct b) := by
  obtain ⟨hop, hshamt, hfunct⟩ := (mask_funct hb).mp hmatches
  refine ⟨fieldRs w, fieldRt w, fieldRd w, ?_⟩
  rw [← hop, ← hshamt, ← hfunct, rType_fields]

theorem eq_rType_of_mask_shift {w b : Word} (hb : b &&& 0xFC00003F#32 = b)
    (hmatches : w &&& 0xFC00003F#32 = b) :
    ∃ rs rt rd shamt, w = rType (opcode b) rs rt rd shamt (funct b) := by
  obtain ⟨hop, hfunct⟩ := (mask_shift hb).mp hmatches
  refine ⟨fieldRs w, fieldRt w, fieldRd w, fieldShamt w, ?_⟩
  rw [← hop, ← hfunct, rType_fields]

theorem eq_rType_of_mask_cop0 {w b : Word} (hb : b &&& 0xFFE007FF#32 = b)
    (hmatches : w &&& 0xFFE007FF#32 = b) :
    ∃ rt rd, w = rType (opcode b) (fieldRs b) rt rd (fieldShamt b) (funct b) := by
  obtain ⟨hop, hrs, hshamt, hfunct⟩ := (mask_cop0 hb).mp hmatches
  refine ⟨fieldRt w, fieldRd w, ?_⟩
  rw [← hop, ← hrs, ← hshamt, ← hfunct, rType_fields]

theorem eq_iType_of_mask_opcode {w b : Word} (hb : b &&& 0xFC000000#32 = b)
    (hmatches : w &&& 0xFC000000#32 = b) : ∃ rs rt imm, w = iType (opcode b) rs rt imm := by
  refine ⟨fieldRs w, fieldRt w, fieldImm w, ?_⟩
  rw [← (mask_opcode hb).mp hmatches, iType_fields]

theorem eq_iType_of_mask_opcode_rt {w b : Word} (hb : b &&& 0xFC1F0000#32 = b)
    (hmatches : w &&& 0xFC1F0000#32 = b) : ∃ rs imm, w = iType (opcode b) rs (fieldRt b) imm := by
  obtain ⟨hop, hrt⟩ := (mask_opcode_rt hb).mp hmatches
  refine ⟨fieldRs w, fieldImm w, ?_⟩
  rw [← hop, ← hrt, iType_fields]

theorem eq_jType_of_mask_opcode {w b : Word} (hb : b &&& 0xFC000000#32 = b)
    (hmatches : w &&& 0xFC000000#32 = b) : ∃ addr, w = jType (opcode b) addr := by
  refine ⟨fieldAddr w, ?_⟩
  rw [← (mask_opcode hb).mp hmatches, jType_fields]

/-! ### A word that matches a row decodes to an instruction of the row -/

/-- The word decodes to an instruction of this row. -/
def DecodesInRow (p : Pattern) (w : Word) : Prop := ∃ i, decodeWord w = .ok i ∧ i.pattern = p

theorem decodesInRow_of_functRow {b w : Word} {mk : Reg → Reg → Reg → Instr}
    (hdecode : ∀ rs rt rd, decodeWord (rType (opcode b) rs rt rd (fieldShamt b) (funct b)) =
      .ok (mk rs rt rd))
    (hrow : ∀ rs rt rd, (mk rs rt rd).pattern = ⟨b, 0xFC0007FF#32⟩)
    (hb : b &&& 0xFC0007FF#32 = b) (hmatches : w &&& 0xFC0007FF#32 = b) :
    DecodesInRow ⟨b, 0xFC0007FF#32⟩ w := by
  obtain ⟨rs, rt, rd, rfl⟩ := eq_rType_of_mask_funct hb hmatches
  exact ⟨mk rs rt rd, hdecode rs rt rd, hrow rs rt rd⟩

theorem decodesInRow_of_opcodeRow {b w : Word} {mk : Reg → Reg → Imm → Instr}
    (hdecode : ∀ rs rt imm, decodeWord (iType (opcode b) rs rt imm) = .ok (mk rs rt imm))
    (hrow : ∀ rs rt imm, (mk rs rt imm).pattern = ⟨b, 0xFC000000#32⟩)
    (hb : b &&& 0xFC000000#32 = b) (hmatches : w &&& 0xFC000000#32 = b) :
    DecodesInRow ⟨b, 0xFC000000#32⟩ w := by
  obtain ⟨rs, rt, imm, rfl⟩ := eq_iType_of_mask_opcode hb hmatches
  exact ⟨mk rs rt imm, hdecode rs rt imm, hrow rs rt imm⟩

theorem decodesInRow_of_shiftRow {b w : Word} {mk : Reg → Reg → Reg → Shamt → Instr}
    (hdecode : ∀ rs rt rd n, decodeWord (rType (opcode b) rs rt rd n (funct b)) = .ok (mk rs rt rd n))
    (hrow : ∀ rs rt rd n, (mk rs rt rd n).pattern = ⟨b, 0xFC00003F#32⟩)
    (hb : b &&& 0xFC00003F#32 = b) (hmatches : w &&& 0xFC00003F#32 = b) :
    DecodesInRow ⟨b, 0xFC00003F#32⟩ w := by
  obtain ⟨rs, rt, rd, n, rfl⟩ := eq_rType_of_mask_shift hb hmatches
  exact ⟨mk rs rt rd n, hdecode rs rt rd n, hrow rs rt rd n⟩

theorem decodesInRow_of_branchZeroRow {b w : Word} {mk : Reg → Imm → Instr}
    (hdecode : ∀ rs imm, decodeWord (iType (opcode b) rs (fieldRt b) imm) = .ok (mk rs imm))
    (hrow : ∀ rs imm, (mk rs imm).pattern = ⟨b, 0xFC1F0000#32⟩)
    (hb : b &&& 0xFC1F0000#32 = b) (hmatches : w &&& 0xFC1F0000#32 = b) :
    DecodesInRow ⟨b, 0xFC1F0000#32⟩ w := by
  obtain ⟨rs, imm, rfl⟩ := eq_iType_of_mask_opcode_rt hb hmatches
  exact ⟨mk rs imm, hdecode rs imm, hrow rs imm⟩

theorem decodesInRow_of_cop0Row {b w : Word} {mk : Reg → Reg → Instr}
    (hdecode : ∀ rt rd,
      decodeWord (rType (opcode b) (fieldRs b) rt rd (fieldShamt b) (funct b)) = .ok (mk rt rd))
    (hrow : ∀ rt rd, (mk rt rd).pattern = ⟨b, 0xFFE007FF#32⟩)
    (hb : b &&& 0xFFE007FF#32 = b) (hmatches : w &&& 0xFFE007FF#32 = b) :
    DecodesInRow ⟨b, 0xFFE007FF#32⟩ w := by
  obtain ⟨rt, rd, rfl⟩ := eq_rType_of_mask_cop0 hb hmatches
  exact ⟨mk rt rd, hdecode rt rd, hrow rt rd⟩

theorem decodesInRow_of_jumpRow {b w : Word} {mk : JumpField → Instr}
    (hdecode : ∀ addr, decodeWord (jType (opcode b) addr) = .ok (mk addr))
    (hrow : ∀ addr, (mk addr).pattern = ⟨b, 0xFC000000#32⟩)
    (hb : b &&& 0xFC000000#32 = b) (hmatches : w &&& 0xFC000000#32 = b) :
    DecodesInRow ⟨b, 0xFC000000#32⟩ w := by
  obtain ⟨addr, rfl⟩ := eq_jType_of_mask_opcode hb hmatches
  exact ⟨mk addr, hdecode addr, hrow addr⟩

/-- SLL's row holds NOP's word too, which the decoder gives to NOP. -/
theorem decodesInRow_sll {rd rt : Reg} {n : Shamt} {w : Word} (hw : w ≠ 0)
    (hmatches : (Instr.sll rd rt n).pattern.matches w) : DecodesInRow (Instr.sll rd rt n).pattern w := by
  obtain ⟨rs, rt', rd', n', rfl⟩ := eq_rType_of_mask_shift (b := 0x00000000#32) rfl hmatches
  exact ⟨.sll rd' rt' n', decodeWord_sll hw, rfl⟩

theorem decodesInRow_nop {w : Word} (hmatches : Instr.nop.pattern.matches w) :
    DecodesInRow Instr.nop.pattern w := by
  obtain rfl : w = 0#32 := BitVec.and_allOnes.symm.trans hmatches
  exact ⟨.nop, decodeWord_zero, rfl⟩

/-- A word that matches the row of an instruction decodes to an instruction of that row, unless it is
NOP's. -/
theorem decodesInRow_of_matches (r : Instr) {w : Word} (h : r.pattern.matches w) :
    DecodesInRow r.pattern w ∨ w = 0 := by
  by_cases hw : w = 0
  · exact .inr hw
  refine .inl ?_
  cases r with
  | add => exact decodesInRow_of_functRow decodeWord_add (fun _ _ _ => rfl) rfl h
  | addu => exact decodesInRow_of_functRow decodeWord_addu (fun _ _ _ => rfl) rfl h
  | addi => exact decodesInRow_of_opcodeRow decodeWord_addi (fun _ _ _ => rfl) rfl h
  | addiu => exact decodesInRow_of_opcodeRow decodeWord_addiu (fun _ _ _ => rfl) rfl h
  | slt => exact decodesInRow_of_functRow decodeWord_slt (fun _ _ _ => rfl) rfl h
  | sltu => exact decodesInRow_of_functRow decodeWord_sltu (fun _ _ _ => rfl) rfl h
  | slti => exact decodesInRow_of_opcodeRow decodeWord_slti (fun _ _ _ => rfl) rfl h
  | sltiu => exact decodesInRow_of_opcodeRow decodeWord_sltiu (fun _ _ _ => rfl) rfl h
  | sub => exact decodesInRow_of_functRow decodeWord_sub (fun _ _ _ => rfl) rfl h
  | subu => exact decodesInRow_of_functRow decodeWord_subu (fun _ _ _ => rfl) rfl h
  | and => exact decodesInRow_of_functRow decodeWord_and (fun _ _ _ => rfl) rfl h
  | andi => exact decodesInRow_of_opcodeRow decodeWord_andi (fun _ _ _ => rfl) rfl h
  | lui => exact decodesInRow_of_opcodeRow decodeWord_lui (fun _ _ _ => rfl) rfl h
  | nor => exact decodesInRow_of_functRow decodeWord_nor (fun _ _ _ => rfl) rfl h
  | or => exact decodesInRow_of_functRow decodeWord_or (fun _ _ _ => rfl) rfl h
  | ori => exact decodesInRow_of_opcodeRow decodeWord_ori (fun _ _ _ => rfl) rfl h
  | xor => exact decodesInRow_of_functRow decodeWord_xor (fun _ _ _ => rfl) rfl h
  | xori => exact decodesInRow_of_opcodeRow decodeWord_xori (fun _ _ _ => rfl) rfl h
  | beq => exact decodesInRow_of_opcodeRow decodeWord_beq (fun _ _ _ => rfl) rfl h
  | bne => exact decodesInRow_of_opcodeRow decodeWord_bne (fun _ _ _ => rfl) rfl h
  | bgez => exact decodesInRow_of_branchZeroRow decodeWord_bgez (fun _ _ => rfl) rfl h
  | bgtz => exact decodesInRow_of_opcodeRow decodeWord_bgtz (fun _ _ _ => rfl) rfl h
  | blez => exact decodesInRow_of_opcodeRow decodeWord_blez (fun _ _ _ => rfl) rfl h
  | bltz => exact decodesInRow_of_branchZeroRow decodeWord_bltz (fun _ _ => rfl) rfl h
  | j => exact decodesInRow_of_jumpRow decodeWord_j (fun _ => rfl) rfl h
  | jal => exact decodesInRow_of_jumpRow decodeWord_jal (fun _ => rfl) rfl h
  | jr => exact decodesInRow_of_functRow decodeWord_jr (fun _ _ _ => rfl) rfl h
  | jalr => exact decodesInRow_of_functRow decodeWord_jalr (fun _ _ _ => rfl) rfl h
  | div => exact decodesInRow_of_functRow decodeWord_div (fun _ _ _ => rfl) rfl h
  | divu => exact decodesInRow_of_functRow decodeWord_divu (fun _ _ _ => rfl) rfl h
  | mfhi => exact decodesInRow_of_functRow decodeWord_mfhi (fun _ _ _ => rfl) rfl h
  | mthi => exact decodesInRow_of_functRow decodeWord_mthi (fun _ _ _ => rfl) rfl h
  | mflo => exact decodesInRow_of_functRow decodeWord_mflo (fun _ _ _ => rfl) rfl h
  | mtlo => exact decodesInRow_of_functRow decodeWord_mtlo (fun _ _ _ => rfl) rfl h
  | mult => exact decodesInRow_of_functRow decodeWord_mult (fun _ _ _ => rfl) rfl h
  | multu => exact decodesInRow_of_functRow decodeWord_multu (fun _ _ _ => rfl) rfl h
  | mul => exact decodesInRow_of_functRow decodeWord_mul (fun _ _ _ => rfl) rfl h
  | lb => exact decodesInRow_of_opcodeRow decodeWord_lb (fun _ _ _ => rfl) rfl h
  | lbu => exact decodesInRow_of_opcodeRow decodeWord_lbu (fun _ _ _ => rfl) rfl h
  | lh => exact decodesInRow_of_opcodeRow decodeWord_lh (fun _ _ _ => rfl) rfl h
  | lhu => exact decodesInRow_of_opcodeRow decodeWord_lhu (fun _ _ _ => rfl) rfl h
  | lw => exact decodesInRow_of_opcodeRow decodeWord_lw (fun _ _ _ => rfl) rfl h
  | sb => exact decodesInRow_of_opcodeRow decodeWord_sb (fun _ _ _ => rfl) rfl h
  | sh => exact decodesInRow_of_opcodeRow decodeWord_sh (fun _ _ _ => rfl) rfl h
  | sw => exact decodesInRow_of_opcodeRow decodeWord_sw (fun _ _ _ => rfl) rfl h
  | mfc0 => exact decodesInRow_of_cop0Row decodeWord_mfc0 (fun _ _ => rfl) rfl h
  | mtc0 => exact decodesInRow_of_cop0Row decodeWord_mtc0 (fun _ _ => rfl) rfl h
  | nop => exact decodesInRow_nop h
  | sll => exact decodesInRow_sll hw h
  | sllv => exact decodesInRow_of_functRow decodeWord_sllv (fun _ _ _ => rfl) rfl h
  | srl => exact decodesInRow_of_shiftRow decodeWord_srl (fun _ _ _ _ => rfl) rfl h
  | srlv => exact decodesInRow_of_functRow decodeWord_srlv (fun _ _ _ => rfl) rfl h
  | sra => exact decodesInRow_of_shiftRow decodeWord_sra (fun _ _ _ _ => rfl) rfl h
  | srav => exact decodesInRow_of_functRow decodeWord_srav (fun _ _ _ => rfl) rfl h

/-! ### A decoded word matches the row of its instruction -/

/-! The row of an instruction with operands is closed only once its fields are dropped, so each of these
takes the row as an equation. -/

theorem matches_functRow {p : Pattern} {w b : Word} (hp : p = ⟨b, 0xFC0007FF#32⟩)
    (hb : b &&& 0xFC0007FF#32 = b) (hop : opcode w = opcode b) (hshamt : fieldShamt w = fieldShamt b)
    (hfunct : funct w = funct b) : p.matches w :=
  hp ▸ (mask_funct hb).mpr ⟨hop, hshamt, hfunct⟩

theorem matches_shiftRow {p : Pattern} {w b : Word} (hp : p = ⟨b, 0xFC00003F#32⟩)
    (hb : b &&& 0xFC00003F#32 = b) (hop : opcode w = opcode b) (hfunct : funct w = funct b) :
    p.matches w :=
  hp ▸ (mask_shift hb).mpr ⟨hop, hfunct⟩

theorem matches_branchZeroRow {p : Pattern} {w b : Word} (hp : p = ⟨b, 0xFC1F0000#32⟩)
    (hb : b &&& 0xFC1F0000#32 = b) (hop : opcode w = opcode b) (hrt : fieldRt w = fieldRt b) :
    p.matches w :=
  hp ▸ (mask_opcode_rt hb).mpr ⟨hop, hrt⟩

theorem matches_cop0Row {p : Pattern} {w b : Word} (hp : p = ⟨b, 0xFFE007FF#32⟩)
    (hb : b &&& 0xFFE007FF#32 = b) (hop : opcode w = opcode b) (hrs : fieldRs w = fieldRs b)
    (hshamt : fieldShamt w = fieldShamt b) (hfunct : funct w = funct b) : p.matches w :=
  hp ▸ (mask_cop0 hb).mpr ⟨hop, hrs, hshamt, hfunct⟩

theorem matches_opcodeRow {p : Pattern} {w b : Word} (hp : p = ⟨b, 0xFC000000#32⟩)
    (hb : b &&& 0xFC000000#32 = b) (hop : opcode w = opcode b) : p.matches w :=
  hp ▸ (mask_opcode hb).mpr hop

theorem decodeFunct_matches {w : Word} {i : Instr} (hop : opcode w = 0x00#6) (hshamt : fieldShamt w = 0#5)
    (h : decodeFunct w = .ok i) : i.pattern.matches w := by
  unfold decodeFunct at h
  split at h <;> cases h <;> exact matches_functRow rfl rfl hop hshamt ‹funct w = _›

theorem decodeSpecial_matches {w : Word} {i : Instr} (hop : opcode w = 0x00#6)
    (h : decodeSpecial w = .ok i) : i.pattern.matches w := by
  unfold decodeSpecial at h
  split at h
  case h_1 hfunct =>
    split_ifs at h with hzero <;> cases h
    · rw [hzero]
      decide
    · exact matches_shiftRow rfl rfl hop hfunct
  case h_2 hfunct =>
    cases h
    exact matches_shiftRow rfl rfl hop hfunct
  case h_3 hfunct =>
    cases h
    exact matches_shiftRow rfl rfl hop hfunct
  case h_4 =>
    split_ifs at h with hshamt
    exact decodeFunct_matches hop hshamt h

theorem decodeBranchZero_matches {w : Word} {i : Instr} (hop : opcode w = 0x01#6)
    (h : decodeBranchZero w = .ok i) : i.pattern.matches w := by
  unfold decodeBranchZero at h
  split at h <;> cases h <;> exact matches_branchZeroRow rfl rfl hop ‹fieldRt w = _›

/-- The low eleven bits of a word are given by its last two fields. -/
theorem fields_of_low11 {w v : Word} (h : w.extractLsb' 0 11 = v.extractLsb' 0 11) :
    fieldShamt w = fieldShamt v ∧ funct w = funct v := by
  rw [low11, low11] at h
  constructor
  · simpa only [BitVec.extractLsb'_append_eq_left] using congrArg (BitVec.extractLsb' 6 5) h
  · simpa only [BitVec.extractLsb'_append_eq_right] using congrArg (BitVec.extractLsb' 0 6) h

theorem decodeCop0_matches {w : Word} {i : Instr} (hop : opcode w = 0x10#6)
    (h : decodeCop0 w = .ok i) : i.pattern.matches w := by
  unfold decodeCop0 at h
  split_ifs at h with hlow
  obtain ⟨hshamt, hfunct⟩ := fields_of_low11 (v := 0#32) hlow
  split at h <;> cases h <;>
    exact matches_cop0Row rfl rfl hop ‹fieldRs w = _› hshamt hfunct

theorem decodeMul_matches {w : Word} {i : Instr} (hop : opcode w = 0x1C#6)
    (h : decodeMul w = .ok i) : i.pattern.matches w := by
  unfold decodeMul at h
  split_ifs at h with hlow
  obtain ⟨hshamt, hfunct⟩ := fields_of_low11 (v := 2#32) hlow
  cases h
  exact matches_functRow rfl rfl hop hshamt hfunct

/-- Opcodes that are tables of their own have their own lemmas; every other opcode is a row. -/
theorem decodeWord_matches {w : Word} {i : Instr} (h : decodeWord w = .ok i) : i.pattern.matches w := by
  unfold decodeWord at h
  split at h
  case h_1 hop => exact decodeSpecial_matches hop h
  case h_2 hop => exact decodeBranchZero_matches hop h
  case h_17 hop => exact decodeCop0_matches hop h
  case h_18 hop => exact decodeMul_matches hop h
  case h_27 => cases h
  all_goals
    cases h
    exact matches_opcodeRow rfl rfl ‹opcode w = _›

/-! ### The rows are disjoint, but for NOP's word -/

/-- A row is known by its pattern. -/
theorem row_eq_of_pattern_eq : ∀ r ∈ Instr.rows, ∀ q ∈ Instr.rows, r.pattern = q.pattern → r = q := by
  decide

/-- Two rows only match the all-zero word. -/
theorem row_of_matches_zero :
    ∀ r ∈ Instr.rows, r.pattern.matches 0 → r = .nop ∨ r = .sll 0 0 0 := by
  decide

/-- Settles O3: the rows and the decoder agree both ways, so a word other than NOP's, which decodes to one
instruction, lies in that instruction's row only. -/
theorem patternTableIsTheDecoder : Obligations.PatternTableIsTheDecoder := by
  refine ⟨fun w i => decodeWord_matches, fun w r _ hr => ?decodes, fun w r hrow q hqrow hr hq => ?disjoint⟩
  case decodes =>
    rcases decodesInRow_of_matches r hr with ⟨i, hi, hpattern⟩ | rfl
    · exact ⟨i, hi, .inl hpattern⟩
    · exact ⟨.nop, decodeWord_zero, .inr ⟨rfl, rfl⟩⟩
  case disjoint =>
    by_cases hw : w = 0
    · subst hw
      rcases row_of_matches_zero r hrow hr with rfl | rfl <;>
        rcases row_of_matches_zero q hqrow hq with rfl | rfl <;> simp
    · obtain ⟨i, hi, hri⟩ := (decodesInRow_of_matches r hr).resolve_right hw
      obtain ⟨j, hj, hqj⟩ := (decodesInRow_of_matches q hq).resolve_right hw
      obtain rfl : i = j := Except.ok.inj (hi.symm.trans hj)
      exact .inl (row_eq_of_pattern_eq r hrow q hqrow (hri.symm.trans hqj))

/-! ### Byte order (R52) -/

/-- Four bytes at rising addresses join to the word the statements write. -/
theorem joinBytes_word (o : ByteOrder) (b0 b1 b2 b3 : Byte) :
    joinBytes o [b0, b1, b2, b3] = wordOf o b0 b1 b2 b3 := by
  cases o <;>
  · apply BitVec.eq_of_getLsbD_eq
    intro i hi
    simp only [joinBytes, joinLow, wordOf, List.reverse_cons, List.reverse_nil, List.nil_append,
      List.cons_append, BitVec.getLsbD_or, BitVec.getLsbD_shiftLeft, BitVec.getLsbD_setWidth,
      BitVec.getLsbD_append, BitVec.getLsbD_zero]
    grind

/-- A word is its four bytes, lowest first. -/
theorem wordOf_bytes (w : Word) :
    wordOf .little (w.extractLsb' 0 8) (w.extractLsb' 8 8) (w.extractLsb' 16 8) (w.extractLsb' 24 8) =
      w := by
  apply BitVec.eq_of_getLsbD_eq
  intro i hi
  simp only [wordOf, BitVec.getLsbD_append]
  split_ifs <;> exact getLsbD_field (by omega) (by omega)

/-- A word's bytes laid out in either order join to the word. -/
theorem joinBytes_inOrder_bytes (o : ByteOrder) (w : Word) :
    joinBytes o (inOrder o
      [w.extractLsb' 0 8, w.extractLsb' 8 8, w.extractLsb' 16 8, w.extractLsb' 24 8]) = w := by
  cases o with
  | little => exact (joinBytes_word _ _ _ _ _).trans (wordOf_bytes w)
  | big => exact (joinBytes_word _ _ _ _ _).trans (wordOf_bytes w)

/-- A stream that begins with the bytes of a listed word gives its instruction, and the rest. -/
theorem decode_append {o : ByteOrder} {bs rest : List Byte} {i : Instr} (hlen : bs.length = 4)
    (hdecode : decodeWord (joinBytes o bs) = .ok i) : decode o (bs ++ rest) = .ok (i, rest) := by
  match bs, hlen with
  | [b0, b1, b2, b3], _ =>
    simp only [List.cons_append, List.nil_append, decode, hdecode]

/-- Settles O4. -/
theorem byteStreamDecodes : Obligations.ByteStreamDecodes := by
  intro o w i rest h
  refine decode_append ?length ?word
  case length => cases o <;> rfl
  case word => rw [joinBytes_inOrder_bytes, h]

end Sys2Proof.Proofs
end

section
/-! PROOFS. The bytes of an access (20_memory.md R51, R52, R57): an aligned access does not wrap round, so
the statements' `a + k`, as a word or as a number, name the same bytes as `footprint`; and what a store leaves
at each address. -/

namespace Sys2Proof.Proofs

open Sys2Proof.Machine Sys2Proof.Claims

/-! ### Addresses -/

theorem aligned_iff {w : Width} {a : Word} : aligned w a = true ↔ a.toNat % w.bytes = 0 := by
  simp [aligned]

/-- An aligned access ends inside the address space: its width divides the size of the space. -/
theorem toNat_add_bytes_le {w : Width} {a : Word} (h : aligned w a = true) :
    a.toNat + w.bytes ≤ 4294967296 := by
  have hmod := aligned_iff.mp h
  have ha := a.isLt
  cases w <;> simp only [Width.bytes] at hmod ⊢ <;> omega

theorem toNat_add_of_aligned {w : Width} {a : Word} (h : aligned w a = true) {k : Nat} (hk : k < w.bytes) :
    (a + BitVec.ofNat 32 k).toNat = a.toNat + k := by
  have hle := toNat_add_bytes_le h
  rw [BitVec.toNat_add, BitVec.toNat_ofNat, Nat.add_mod_mod]
  exact Nat.mod_eq_of_lt (by omega)

theorem mem_footprint {w : Width} {a b : Word} :
    b ∈ footprint w a ↔ ∃ k, k < w.bytes ∧ b = a + BitVec.ofNat 32 k := by
  rw [footprint_eq_map, List.mem_map]
  simp only [List.mem_range, eq_comm]

/-- A property of the bytes of an aligned access, at the addresses counted up from the first one. -/
theorem forall_footprint {w : Width} {a : Word} {p : Nat → Prop} (h : aligned w a = true) :
    (∀ b ∈ footprint w a, p b.toNat) ↔ ∀ k, k < w.bytes → p (a.toNat + k) := by
  constructor
  · intro hall k hk
    rw [← toNat_add_of_aligned h hk]
    exact hall _ (mem_footprint.mpr ⟨k, hk, rfl⟩)
  · intro hall b hb
    obtain ⟨k, hk, rfl⟩ := mem_footprint.mp hb
    rw [toNat_add_of_aligned h hk]
    exact hall k hk

theorem exists_footprint {w : Width} {a : Word} {p : Nat → Prop} (h : aligned w a = true) :
    (∃ b ∈ footprint w a, p b.toNat) ↔ ∃ k, k < w.bytes ∧ p (a.toNat + k) := by
  have hnot := forall_footprint (p := fun x => ¬ p x) h
  simpa only [not_forall, not_not, exists_prop] using not_congr hnot

/-! ### Bytes written -/

/-- Bytes written to rising addresses that do not wrap round are found there; every other byte is as
before. -/
theorem byteAt?_setBytes_addresses {m : Memory} {a : Word} {bs : List Byte}
    (h : a.toNat + bs.length ≤ 4294967296) (x : Nat) :
    byteAt? (setBytes m (addresses bs.length a) bs) x =
      if a.toNat ≤ x ∧ x < a.toNat + bs.length then bs[x - a.toNat]? else byteAt? m x := by
  induction bs generalizing m a with
  | nil =>
    rw [List.length_nil, addresses, setBytes_nil, if_neg (by omega)]
  | cons b bs ih =>
    rw [List.length_cons] at h ⊢
    rw [addresses, setBytes_cons]
    by_cases hlast : bs = []
    · subst hlast
      simp only [List.length_nil, addresses, setBytes_nil, byteAt?_setByte]
      by_cases hx : x = a.toNat
      · rw [if_pos hx, if_pos (by omega), hx, Nat.sub_self]
        rfl
      · rw [if_neg hx, if_neg (by omega)]
    · have hpos : 0 < bs.length := List.length_pos_iff.mpr hlast
      have hnext : (a + 1).toNat = a.toNat + 1 := by bv_omega
      rw [ih (by omega), hnext, byteAt?_setByte]
      by_cases hx : x = a.toNat
      · rw [if_neg (by omega), if_pos hx, if_pos (by omega), hx, Nat.sub_self]
        rfl
      · rw [if_neg hx]
        by_cases hin : a.toNat + 1 ≤ x ∧ x < a.toNat + 1 + bs.length
        · rw [if_pos hin, if_pos (by omega), show x - a.toNat = x - (a.toNat + 1) + 1 by omega]
          rfl
        · rw [if_neg hin, if_neg (by omega)]

theorem length_splitLow (n : Nat) (v : Word) : (splitLow n v).length = n := by
  induction n generalizing v with
  | zero => rfl
  | succ n ih => rw [splitLow, List.length_cons, ih]

theorem length_splitBytes (o : ByteOrder) (n : Nat) (v : Word) : (splitBytes o n v).length = n := by
  cases o
  · exact length_splitLow n v
  · exact List.length_reverse.trans (length_splitLow n v)

/-- What an aligned store leaves at each address. -/
theorem byteAt?_writeValue {s : State} {w : Width} {a v : Word} (h : aligned w a = true) (x : Nat) :
    byteAt? (s.writeValue w a v).mem x =
      if a.toNat ≤ x ∧ x < a.toNat + w.bytes then
        (splitBytes s.cfg.byteOrder w.bytes v)[x - a.toNat]?
      else byteAt? s.mem x := by
  have hlen := length_splitBytes s.cfg.byteOrder w.bytes v
  have hle := toNat_add_bytes_le h
  have hset := byteAt?_setBytes_addresses (m := s.mem) (a := a) (bs := splitBytes s.cfg.byteOrder w.bytes v)
    (by omega) x
  rwa [hlen] at hset

/-! ### The bytes of a value -/

theorem splitBytes_byte (o : ByteOrder) (v : Word) : splitBytes o 1 v = [v.extractLsb' 0 8] := by
  cases o <;> exact congrArg (fun b => [b]) (BitVec.setWidth_eq_extractLsb' (by decide) : v.setWidth 8 = _)

theorem splitBytes_eq_inOrder (o : ByteOrder) (n : Nat) (v : Word) :
    splitBytes o n v = inOrder o (splitLow n v) := by
  cases o <;> rfl

theorem splitLow_half (v : Word) : splitLow 2 v = [v.extractLsb' 0 8, v.extractLsb' 8 8] := by
  simp only [splitLow, BitVec.setWidth_ushiftRight_eq_extractLsb]
  rw [BitVec.setWidth_eq_extractLsb' (by decide)]

theorem splitLow_word (v : Word) :
    splitLow 4 v = [v.extractLsb' 0 8, v.extractLsb' 8 8, v.extractLsb' 16 8, v.extractLsb' 24 8] := by
  simp only [splitLow, ← BitVec.shiftRight_add, BitVec.setWidth_ushiftRight_eq_extractLsb]
  rw [BitVec.setWidth_eq_extractLsb' (by decide)]

end Sys2Proof.Proofs
end

section
/-! PROOFS. What one instruction can do, said once for all 54. `Shape` sorts the instructions into the few
forms their meanings have; `Shape.of` is the only proof here that looks at every instruction, and every
statement about all of them goes through the forms. -/

namespace Sys2Proof.Proofs

open Sys2Proof.Machine Sys2Proof.Claims

/-! ### What a value may depend on -/

/-- A value of the state that depends on no general register outside `l`, and not on coprocessor 0 or the
waits for it. -/
structure Reads {α : Type} (l : List Reg) (f : State → α) : Prop where
  setReg : ∀ s r v, r ∉ l → f (s.setReg r v) = f s
  withCp0 : ∀ (s : State) c, f { s with cp0 := c } = f s

theorem reg_setReg_of_ne {s : State} {q r : Reg} {v : Word} (h : r ≠ q) :
    (s.setReg r v).reg q = s.reg q := by
  rw [reg_setReg, if_neg h.symm]
  split
  · next hzero => rw [hzero, reg_zero]
  · rfl

theorem Reads.reg {l : List Reg} {q : Reg} (hq : q ∈ l) : Reads l (fun s => s.reg q) where
  setReg _ _ _ hr := reg_setReg_of_ne fun h => hr (h ▸ hq)
  withCp0 _ _ := rfl

theorem Reads.map {α β : Type} {l : List Reg} {f : State → α} (g : α → β) (hf : Reads l f) :
    Reads l (fun s => g (f s)) where
  setReg s r v hr := congrArg g (hf.setReg s r v hr)
  withCp0 s c := congrArg g (hf.withCp0 s c)

theorem Reads.map₂ {α β γ : Type} {l : List Reg} {f : State → α} {f' : State → β} (g : α → β → γ)
    (hf : Reads l f) (hf' : Reads l f') : Reads l (fun s => g (f s) (f' s)) where
  setReg s r v hr := congrArg₂ g (hf.setReg s r v hr) (hf'.setReg s r v hr)
  withCp0 s c := congrArg₂ g (hf.withCp0 s c) (hf'.withCp0 s c)

/-- A value that no general register takes part in. -/
theorem Reads.other {α : Type} {l : List Reg} {f : State → α}
    (h : ∀ (s : State) g c, f { s with gpr := g, cp0 := c } = f s) : Reads l f where
  setReg s r v _ := h s (s.setReg r v).gpr s.cp0
  withCp0 s c := h s s.gpr c

/-! ### The forms of the meanings -/

/-- HI and LO after a division: these two values, or a draw of both. -/
def setOrDrawHiLo (s : State) : Option (Word × Word) → State
  | some (h, l) => s.setHiLo h l
  | none => s.drawHiLo

/-- The form of an instruction's meaning, with what it writes (R24), whether it is a control transfer, and
what its results depend on. -/
inductive Shape : Instr → Prop
  /-- a result to a general register, with the overflow condition of ADD, ADDI and SUB -/
  | result {i : Instr} {d : Reg} {o : State → Bool} {v : State → Word}
      (hdest : destination i = some d) (hseq : isControlTransfer i = false)
      (ho : Reads (sources i) o) (hv : Reads (sources i) v)
      (hexec : ∀ s, exec i s = unlessOverflow (o s) s (writeResult d (v s) s)) : Shape i
  /-- MULT, MULTU, DIV, DIVU -/
  | hiLo {i : Instr} {f : State → Option (Word × Word)}
      (hlisted : ∃ rs rt, i = .mult rs rt ∨ i = .multu rs rt ∨ i = .div rs rt ∨ i = .divu rs rt)
      (hdest : destination i = none) (hseq : isControlTransfer i = false) (hf : Reads (sources i) f)
      (hexec : ∀ s, exec i s = .next (setOrDrawHiLo s (f s)).advance) : Shape i
  | mthi (rs : Reg) : Shape (.mthi rs)
  | mtlo (rs : Reg) : Shape (.mtlo rs)
  | nop : Shape .nop
  | mfc0 (rt rd : Reg) : Shape (.mfc0 rt rd)
  | mtc0 (rt rd : Reg) : Shape (.mtc0 rt rd)
  | load {i : Instr} {rt rs : Reg} {imm : Imm} {w : Width} {extend : Word → Word}
      (hdest : destination i = some rt) (hsrc : sources i = [rs]) (hseq : isControlTransfer i = false)
      (hexec : ∀ s, exec i s = loadTo rt w (s.ea rs imm) extend s) : Shape i
  | store {i : Instr} {rt rs : Reg} {imm : Imm} {w : Width}
      (hstore : (i, w.bytes) ∈ stores rt rs imm) (hdest : destination i = none)
      (hsrc : sources i = [rs, rt]) (hseq : isControlTransfer i = false)
      (hexec : ∀ s, exec i s = storeFrom w (s.ea rs imm) (s.reg rt) s) : Shape i
  /-- a branch, J or JR -/
  | transfer {i : Instr} {target : State → Option Word}
      (hdest : destination i = none) (hct : isControlTransfer i = true)
      (htarget : Reads (sources i) target)
      (hexec : ∀ s, exec i s = outsideDelaySlot s (.next (s.transfer (target s)))) : Shape i
  /-- JAL, or JALR of a register other than 31 -/
  | link {i : Instr} {target : State → Word}
      (hdest : destination i = some ra) (hct : isControlTransfer i = true)
      (htarget : Reads (sources i) target)
      (hexec : ∀ s, exec i s = outsideDelaySlot s
        (.next ((s.setReg ra s.linkAddress).transfer (some (target s))))) : Shape i
  /-- JALR of register 31, which never completes (R164) -/
  | jalrLinkRegister : Shape (.jalr ra)

/-! ### Each instruction has one of the forms -/

theorem Shape.binary {i : Instr} {d rs rt : Reg} (g : Word → Word → Word)
    (hdest : destination i = some d) (hsrc : sources i = [rs, rt]) (hseq : isControlTransfer i = false)
    (hexec : ∀ s, exec i s = writeResult d (g (s.reg rs) (s.reg rt)) s) : Shape i :=
  .result (o := fun _ => false) hdest hseq (.other fun _ _ _ => rfl)
    (.map₂ g (.reg (by simp [hsrc])) (.reg (by simp [hsrc]))) hexec

theorem Shape.unary {i : Instr} {d rs : Reg} (g : Word → Word)
    (hdest : destination i = some d) (hsrc : sources i = [rs]) (hseq : isControlTransfer i = false)
    (hexec : ∀ s, exec i s = writeResult d (g (s.reg rs)) s) : Shape i :=
  .result (o := fun _ => false) hdest hseq (.other fun _ _ _ => rfl) (.map g (.reg (by simp [hsrc])))
    hexec

/-- ADD and SUB. -/
theorem Shape.checkedBinary {i : Instr} {d rs rt : Reg} (o : Word → Word → Bool)
    (g : Word → Word → Word) (hdest : destination i = some d) (hsrc : sources i = [rs, rt])
    (hseq : isControlTransfer i = false)
    (hexec : ∀ s, exec i s = unlessOverflow (o (s.reg rs) (s.reg rt)) s
      (writeResult d (g (s.reg rs) (s.reg rt)) s)) : Shape i :=
  .result hdest hseq (.map₂ o (.reg (by simp [hsrc])) (.reg (by simp [hsrc])))
    (.map₂ g (.reg (by simp [hsrc])) (.reg (by simp [hsrc]))) hexec

theorem Shape.branch {i : Instr} {c : State → Bool} {imm : Imm}
    (hdest : destination i = none) (hct : isControlTransfer i = true) (hc : Reads (sources i) c)
    (hexec : ∀ s, exec i s = branchIf (c s) imm s) : Shape i :=
  .transfer hdest hct
    (.map₂ (fun (taken : Bool) target => if taken then some target else none) hc
      (.other (f := fun s => s.branchTarget imm) fun _ _ _ => rfl))
    hexec

theorem Shape.branchBinary {i : Instr} {rs rt : Reg} {imm : Imm} (c : Word → Word → Bool)
    (hdest : destination i = none) (hsrc : sources i = [rs, rt]) (hct : isControlTransfer i = true)
    (hexec : ∀ s, exec i s = branchIf (c (s.reg rs) (s.reg rt)) imm s) : Shape i :=
  .branch hdest hct (.map₂ c (.reg (by simp [hsrc])) (.reg (by simp [hsrc]))) hexec

theorem Shape.branchUnary {i : Instr} {rs : Reg} {imm : Imm} (c : Word → Bool)
    (hdest : destination i = none) (hsrc : sources i = [rs]) (hct : isControlTransfer i = true)
    (hexec : ∀ s, exec i s = branchIf (c (s.reg rs)) imm s) : Shape i :=
  .branch hdest hct (.map c (.reg (by simp [hsrc]))) hexec

/-- What DIV leaves in HI and LO; `none`: a draw. -/
def divided (a b : Word) (c : Config) : Option (Word × Word) :=
  if b = 0 ∨ (divOverflows a b = true ∧ c.divOverflow = .draw) then none
  else some (BitVec.ofInt 32 (remainder c.divRounding a.toInt b.toInt),
    BitVec.ofInt 32 (quotient c.divRounding a.toInt b.toInt))

theorem exec_div (rs rt : Reg) (s : State) :
    exec (.div rs rt) s = .next (setOrDrawHiLo s (divided (s.reg rs) (s.reg rt) s.cfg)).advance := by
  show execDiv rs rt s = _
  unfold execDiv divided
  split <;> rfl

/-- What DIVU leaves in HI and LO; `none`: a draw. -/
def dividedUnsigned (a b : Word) : Option (Word × Word) :=
  if b = 0 then none else some (BitVec.ofNat 32 (a.toNat % b.toNat), BitVec.ofNat 32 (a.toNat / b.toNat))

theorem exec_divu (rs rt : Reg) (s : State) :
    exec (.divu rs rt) s = .next (setOrDrawHiLo s (dividedUnsigned (s.reg rs) (s.reg rt))).advance := by
  show execDivu rs rt s = _
  unfold execDivu dividedUnsigned
  split <;> rfl

/-- MULT, MULTU and DIVU, which look at their two registers only. -/
theorem Shape.hiLoBinary {i : Instr} {rs rt : Reg} (g : Word → Word → Option (Word × Word))
    (hlisted : i = .mult rs rt ∨ i = .multu rs rt ∨ i = .div rs rt ∨ i = .divu rs rt)
    (hdest : destination i = none) (hsrc : sources i = [rs, rt]) (hseq : isControlTransfer i = false)
    (hexec : ∀ s, exec i s = .next (setOrDrawHiLo s (g (s.reg rs) (s.reg rt))).advance) : Shape i :=
  .hiLo ⟨rs, rt, hlisted⟩ hdest hseq (.map₂ g (.reg (by simp [hsrc])) (.reg (by simp [hsrc]))) hexec

/-- The two halves of a product. -/
def halves (p : BitVec 64) : Option (Word × Word) := some (p.extractLsb' 32 32, p.extractLsb' 0 32)

theorem exec_jalr_of_ne {rs : Reg} (hrs : rs ≠ ra) (s : State) :
    exec (.jalr rs) s = outsideDelaySlot s
      (.next ((s.setReg ra s.linkAddress).transfer (some (s.reg rs)))) := by
  show execJalr rs s = _
  rw [execJalr, if_neg hrs]

/-- JALR stops on register 31 and links on every other. -/
theorem Shape.jalr (rs : Reg) : Shape (.jalr rs) := by
  by_cases hrs : rs = ra
  case pos => exact hrs ▸ .jalrLinkRegister
  case neg =>
    exact .link (target := fun s => s.reg rs) rfl rfl (.reg (by simp [sources])) (exec_jalr_of_ne hrs)

theorem Shape.of (i : Instr) : Shape i := by
  cases i with
  | add => exact .checkedBinary addOverflows (· + ·) rfl rfl rfl fun _ => rfl
  | addu => exact .binary (· + ·) rfl rfl rfl fun _ => rfl
  | addi rt rs imm =>
    exact .result rfl rfl (.map (addOverflows · (signImm imm)) (.reg (by simp [sources])))
      (.map (· + signImm imm) (.reg (by simp [sources]))) fun _ => rfl
  | addiu rt rs imm => exact .unary (· + signImm imm) rfl rfl rfl fun _ => rfl
  | slt => exact .binary (fun a b => boolWord (ltSigned a b)) rfl rfl rfl fun _ => rfl
  | sltu => exact .binary (fun a b => boolWord (ltUnsigned a b)) rfl rfl rfl fun _ => rfl
  | slti rt rs imm => exact .unary (fun a => boolWord (ltSigned a (signImm imm))) rfl rfl rfl fun _ => rfl
  | sltiu rt rs imm =>
    exact .unary (fun a => boolWord (ltUnsigned a (signImm imm))) rfl rfl rfl fun _ => rfl
  | sub => exact .checkedBinary subOverflows (· - ·) rfl rfl rfl fun _ => rfl
  | subu => exact .binary (· - ·) rfl rfl rfl fun _ => rfl
  | and => exact .binary (· &&& ·) rfl rfl rfl fun _ => rfl
  | andi rt rs imm => exact .unary (· &&& zeroImm imm) rfl rfl rfl fun _ => rfl
  | lui rt imm =>
    exact .result (o := fun _ => false) (v := fun _ => upperImm imm) rfl rfl (.other fun _ _ _ => rfl)
      (.other fun _ _ _ => rfl) fun _ => rfl
  | nor => exact .binary (fun a b => ~~~(a ||| b)) rfl rfl rfl fun _ => rfl
  | or => exact .binary (· ||| ·) rfl rfl rfl fun _ => rfl
  | ori rt rs imm => exact .unary (· ||| zeroImm imm) rfl rfl rfl fun _ => rfl
  | xor => exact .binary (· ^^^ ·) rfl rfl rfl fun _ => rfl
  | xori rt rs imm => exact .unary (· ^^^ zeroImm imm) rfl rfl rfl fun _ => rfl
  | beq => exact .branchBinary (fun a b => decide (a = b)) rfl rfl rfl fun _ => rfl
  | bne => exact .branchBinary (fun a b => decide (a ≠ b)) rfl rfl rfl fun _ => rfl
  | bgez => exact .branchUnary geZero rfl rfl rfl fun _ => rfl
  | bgtz => exact .branchUnary gtZero rfl rfl rfl fun _ => rfl
  | blez => exact .branchUnary leZero rfl rfl rfl fun _ => rfl
  | bltz => exact .branchUnary ltZero rfl rfl rfl fun _ => rfl
  | j addr =>
    exact .transfer (target := fun s => some (s.jumpTarget addr)) rfl rfl (.other fun _ _ _ => rfl)
      fun _ => rfl
  | jal addr =>
    exact .link (target := fun s => s.jumpTarget addr) rfl rfl (.other fun _ _ _ => rfl) fun _ => rfl
  | jr rs => exact .transfer rfl rfl (.map some (.reg (q := rs) (by simp [sources]))) fun _ => rfl
  | jalr rs => exact .jalr rs
  | div rs rt =>
    exact .hiLo ⟨rs, rt, by simp⟩ rfl rfl
      (.map₂ (fun (ab : Word × Word) c => divided ab.1 ab.2 c)
        (.map₂ Prod.mk (.reg (q := rs) (by simp [sources])) (.reg (q := rt) (by simp [sources])))
        (.other (f := State.cfg) fun _ _ _ => rfl))
      (exec_div rs rt)
  | divu rs rt => exact .hiLoBinary dividedUnsigned (by simp) rfl rfl rfl (exec_divu rs rt)
  | mfhi =>
    exact .result (o := fun _ => false) (v := State.hi) rfl rfl (.other fun _ _ _ => rfl)
      (.other fun _ _ _ => rfl) fun _ => rfl
  | mthi rs => exact .mthi rs
  | mflo =>
    exact .result (o := fun _ => false) (v := State.lo) rfl rfl (.other fun _ _ _ => rfl)
      (.other fun _ _ _ => rfl) fun _ => rfl
  | mtlo rs => exact .mtlo rs
  | mult rs rt =>
    exact .hiLoBinary (fun a b => halves (BitVec.ofInt 64 (a.toInt * b.toInt))) (.inl rfl) rfl rfl rfl
      fun _ => rfl
  | multu rs rt =>
    exact .hiLoBinary (fun a b => halves (BitVec.ofNat 64 (a.toNat * b.toNat))) (.inr (.inl rfl)) rfl rfl
      rfl fun _ => rfl
  | mul => exact .binary (· * ·) rfl rfl rfl fun _ => rfl
  | lb => exact .load rfl rfl rfl fun _ => rfl
  | lbu => exact .load rfl rfl rfl fun _ => rfl
  | lh => exact .load rfl rfl rfl fun _ => rfl
  | lhu => exact .load rfl rfl rfl fun _ => rfl
  | lw => exact .load rfl rfl rfl fun _ => rfl
  | sb => exact .store (w := .byte) (by simp [stores, Width.bytes]) rfl rfl rfl fun _ => rfl
  | sh => exact .store (w := .half) (by simp [stores, Width.bytes]) rfl rfl rfl fun _ => rfl
  | sw => exact .store (w := .word) (by simp [stores, Width.bytes]) rfl rfl rfl fun _ => rfl
  | mfc0 rt rd => exact .mfc0 rt rd
  | mtc0 rt rd => exact .mtc0 rt rd
  | nop => exact .nop
  | sll rd rt n => exact .unary (· <<< n.toNat) rfl rfl rfl fun _ => rfl
  | sllv => exact .binary (fun a b => b <<< (shiftAmount a).toNat) rfl rfl rfl fun _ => rfl
  | srl rd rt n => exact .unary (· >>> n.toNat) rfl rfl rfl fun _ => rfl
  | srlv => exact .binary (fun a b => b >>> (shiftAmount a).toNat) rfl rfl rfl fun _ => rfl
  | sra rd rt n => exact .unary (·.sshiftRight n.toNat) rfl rfl rfl fun _ => rfl
  | srav => exact .binary (fun a b => b.sshiftRight (shiftAmount a).toNat) rfl rfl rfl fun _ => rfl

end Sys2Proof.Proofs
end

section
/-! PROOFS. What an instruction changes and leaves alone (10_state.md R22 to R31, 42_control_transfer.md
R150), what every run keeps, and which registers an instruction depends on. One lemma, `frame_of_exec`, says over the
forms of `Shape` what a completed instruction has done to every field; the statements read it off. -/

namespace Sys2Proof.Proofs

open Sys2Proof.Machine Sys2Proof.Claims

/-! ### What a completed instruction has done -/

/-- MULT, MULTU, DIV or DIVU. -/
def WritesBothHiLo (i : Instr) : Prop :=
  ∃ rs rt, i = .mult rs rt ∨ i = .multu rs rt ∨ i = .div rs rt ∨ i = .divu rs rt

/-- What a store does to memory, and what it has checked before. -/
def StoredBy (i : Instr) (s t : State) : Prop :=
  ∃ rt rs imm w, (i, w.bytes) ∈ stores rt rs imm ∧ aligned w (s.ea rs imm) = true ∧
    (∀ b ∈ footprint w (s.ea rs imm), b.toNat ∉ s.cfg.programText) ∧
    t.mem = (s.writeValue w (s.ea rs imm) (s.reg rt)).mem

/-- What a completed instruction has done to the fields of the state, coprocessor 0 aside. -/
structure Frame (i : Instr) (s t : State) : Prop where
  cfg : t.cfg = s.cfg
  pc : t.pc = s.npc
  inDelaySlot : t.inDelaySlot = isControlTransfer i
  npc : isControlTransfer i = false → t.npc = s.npc + 4
  outside : isControlTransfer i = true → s.inDelaySlot = false
  reg : ∀ q, destination i ≠ some q → t.reg q = s.reg q
  hi : t.hi = s.hi ∨ WritesBothHiLo i ∨ ∃ rs, i = .mthi rs
  lo : t.lo = s.lo ∨ WritesBothHiLo i ∨ ∃ rs, i = .mtlo rs
  mem : t.mem = s.mem ∨ StoredBy i s t

/-- An instruction that is no control transfer does its work and goes on. -/
theorem frame_advance {i : Instr} {s u : State} (hseq : isControlTransfer i = false)
    (hcfg : u.cfg = s.cfg) (hnpc : u.npc = s.npc)
    (hreg : ∀ q, destination i ≠ some q → u.reg q = s.reg q)
    (hhi : u.hi = s.hi ∨ WritesBothHiLo i ∨ ∃ rs, i = .mthi rs)
    (hlo : u.lo = s.lo ∨ WritesBothHiLo i ∨ ∃ rs, i = .mtlo rs)
    (hmem : u.mem = s.mem ∨ StoredBy i s u) : Frame i s u.advance where
  cfg := hcfg
  pc := hnpc
  inDelaySlot := hseq.symm
  npc _ := congrArg (· + 4) hnpc
  outside hct := absurd (hseq.symm.trans hct) (by decide)
  reg := hreg
  hi := hhi
  lo := hlo
  mem := hmem

/-- A control transfer outside a delay slot changes, beside where the machine goes on, a register at
most. -/
theorem frame_transfer {i : Instr} {s : State} {g : Vector Word 32} {target : Option Word}
    (hct : isControlTransfer i = true) (hslot : s.inDelaySlot = false)
    (hreg : ∀ q, destination i ≠ some q → { s with gpr := g }.reg q = s.reg q) :
    Frame i s ({ s with gpr := g }.transfer target) where
  cfg := rfl
  pc := rfl
  inDelaySlot := hct.symm
  npc hseq := absurd (hseq.symm.trans hct) (by decide)
  outside _ := hslot
  reg := hreg
  hi := .inl rfl
  lo := .inl rfl
  mem := .inl rfl

theorem reg_setReg_of_dest {i : Instr} {d : Reg} {u : State} {v : Word} (hdest : destination i = some d)
    (q : Reg) (hq : destination i ≠ some q) : (u.setReg d v).reg q = u.reg q :=
  reg_setReg_of_ne fun h => hq (h ▸ hdest)

theorem frame_setOrDrawHiLo {i : Instr} {s : State} (o : Option (Word × Word))
    (hlisted : WritesBothHiLo i) (hseq : isControlTransfer i = false) :
    Frame i s (setOrDrawHiLo s o).advance := by
  cases o <;>
    exact frame_advance hseq rfl rfl (fun _ _ => rfl) (.inr (.inl hlisted)) (.inr (.inl hlisted)) (.inl rfl)

theorem exec_mfc0_eq_next {rt rd : Reg} {s t : State} :
    exec (.mfc0 rt rd) s = .next t ↔ s.cfg.cp0Model = .supplied ∧
      t = (((s.accessCp0 (cp0AfterRead s.draws rd s.cp0)).startMfc0Wait rt).setReg rt
        (cp0Value s.draws rd s.cp0)).advance := by
  show execMfc0 rt rd s = _ ↔ _
  unfold execMfc0
  cases s.cfg.cp0Model <;> simp

theorem exec_mtc0_eq_next {rt rd : Reg} {s t : State} :
    exec (.mtc0 rt rd) s = .next t ↔ s.cfg.cp0Model = .supplied ∧
      t = (s.accessCp0 (cp0AfterWrite s.draws rd (s.reg rt) s.cp0)).advance := by
  show execMtc0 rt rd s = _ ↔ _
  unfold execMtc0
  cases s.cfg.cp0Model <;> simp [eq_comm]

theorem exec_jalrLinkRegister_ne_next (s t : State) : exec (.jalr ra) s ≠ .next t := by
  show execJalr ra s ≠ _
  rw [execJalr, if_pos rfl, Ne, outsideDelaySlot_eq_next]
  rintro ⟨-, ⟨⟩⟩

theorem frame_of_exec {i : Instr} {s t : State} (h : exec i s = .next t) : Frame i s t := by
  cases Shape.of i with
  | result hdest hseq _ _ hexec =>
    rw [hexec, unlessOverflow_eq_next, writeResult_eq_next] at h
    obtain ⟨-, rfl⟩ := h
    exact frame_advance hseq rfl rfl (reg_setReg_of_dest hdest) (.inl rfl) (.inl rfl) (.inl rfl)
  | hiLo hlisted _ hseq _ hexec =>
    rw [hexec, next_eq_next] at h
    subst h
    exact frame_setOrDrawHiLo _ hlisted hseq
  | mthi rs =>
    cases h
    exact frame_advance rfl rfl rfl (fun _ _ => rfl) (.inr (.inr ⟨rs, rfl⟩)) (.inl rfl) (.inl rfl)
  | mtlo rs =>
    cases h
    exact frame_advance rfl rfl rfl (fun _ _ => rfl) (.inl rfl) (.inr (.inr ⟨rs, rfl⟩)) (.inl rfl)
  | nop =>
    cases h
    exact frame_advance rfl rfl rfl (fun _ _ => rfl) (.inl rfl) (.inl rfl) (.inl rfl)
  | mfc0 rt rd =>
    obtain ⟨-, rfl⟩ := exec_mfc0_eq_next.mp h
    exact frame_advance rfl rfl rfl (reg_setReg_of_dest rfl) (.inl rfl) (.inl rfl) (.inl rfl)
  | mtc0 rt rd =>
    obtain ⟨-, rfl⟩ := exec_mtc0_eq_next.mp h
    exact frame_advance rfl rfl rfl (fun _ _ => rfl) (.inl rfl) (.inl rfl) (.inl rfl)
  | load hdest _ hseq hexec =>
    rw [hexec, loadTo_eq_next] at h
    obtain ⟨v, -, rfl⟩ := h
    exact frame_advance hseq rfl rfl (reg_setReg_of_dest hdest) (.inl rfl) (.inl rfl) (.inl rfl)
  | store hstore _ _ hseq hexec =>
    rw [hexec, storeFrom_eq_next] at h
    obtain ⟨haligned, -, htext, rfl⟩ := h
    exact frame_advance hseq rfl rfl (fun _ _ => rfl) (.inl rfl) (.inl rfl)
      (.inr ⟨_, _, _, _, hstore, haligned, htext, rfl⟩)
  | transfer _ hct _ hexec =>
    rw [hexec, outsideDelaySlot_eq_next, next_eq_next] at h
    obtain ⟨hslot, rfl⟩ := h
    exact frame_transfer hct hslot fun _ _ => rfl
  | link hdest hct _ hexec =>
    rw [hexec, outsideDelaySlot_eq_next, next_eq_next] at h
    obtain ⟨hslot, rfl⟩ := h
    exact frame_transfer hct hslot (reg_setReg_of_dest hdest)
  | jalrLinkRegister => exact absurd h (exec_jalrLinkRegister_ne_next s t)

/-! ### Statements about one instruction -/

/-- Settles O9. -/
theorem everyInstructionMovesThePc : Obligations.EveryInstructionMovesThePc := by
  intro i s t h
  have hframe := frame_of_exec h
  exact ⟨hframe.pc, hframe.inDelaySlot, hframe.outside, hframe.npc⟩

/-- Settles O13. -/
theorem onlyTheDestinationRegisterChanges : Obligations.OnlyTheDestinationRegisterChanges :=
  fun _ _ _ q h hq => (frame_of_exec h).reg q hq

/-- Settles O14: a register other than 0 is not the destination, and register 0 reads zero. -/
theorem registerZeroDiscardsWrites : Obligations.RegisterZeroDiscardsWrites := by
  intro i s t h hdest q
  by_cases hq : q = 0#5
  case pos => rw [hq, reg_zero, reg_zero]
  case neg => exact (frame_of_exec h).reg q fun hq' => hq (Option.some.inj (hq'.symm.trans hdest))

/-- Settles O16. -/
theorem onlyTheListedInstructionsWriteHiLo : Obligations.OnlyTheListedInstructionsWriteHiLo := by
  intro i s t h
  exact ⟨(frame_of_exec h).hi.resolve_left, (frame_of_exec h).lo.resolve_left⟩

/-- A store leaves every byte outside its own width from its effective address on alone. -/
theorem StoredBy.byteAt?_of_outside {i : Instr} {s t : State} (h : StoredBy i s t) :
    ∃ rt rs imm n, (i, n) ∈ stores rt rs imm ∧
      ∀ a, ¬ ((s.ea rs imm).toNat ≤ a ∧ a < (s.ea rs imm).toNat + n) →
        byteAt? t.mem a = byteAt? s.mem a := by
  obtain ⟨rt, rs, imm, w, hstore, haligned, -, hmem⟩ := h
  refine ⟨rt, rs, imm, w.bytes, hstore, fun a ha => ?_⟩
  rw [hmem, byteAt?_writeValue_of_notMem]
  intro b hb hba
  obtain ⟨k, hk, hbk⟩ := toNat_of_mem_footprint haligned hb
  omega

/-- Settles O17. -/
theorem onlyStoresWriteMemory : Obligations.OnlyStoresWriteMemory := by
  intro i s t h
  rcases (frame_of_exec h).mem with hmem | hstored
  · exact .inl fun a => by rw [hmem]
  · exact .inr hstored.byteAt?_of_outside

/-! ### What every step and every run keeps -/

/-- A step that goes on executes an instruction in the fetched state, whose memory, configuration and pc are
those of the state before. -/
theorem exec_of_step {s t : State} (h : step s = .next t) : ∃ i, exec i s.afterFetch = .next t := by
  obtain ⟨-, -, w, i, -, -, -, hexec⟩ := step_eq_next.mp h
  exact ⟨i, hexec⟩

theorem cfg_of_step {s t : State} (h : step s = .next t) : t.cfg = s.cfg := by
  obtain ⟨i, hexec⟩ := exec_of_step h
  exact (frame_of_exec hexec).cfg

theorem wf_of_exec {i : Instr} {s t : State} (h : exec i s = .next t) (hs : Memory.wf s.mem) :
    Memory.wf t.mem := by
  rcases (frame_of_exec h).mem with hmem | ⟨rt, rs, imm, w, -, -, -, hmem⟩
  · rwa [hmem]
  · rw [hmem]
    exact writeValue_wf w _ _ hs

/-- A store has checked that it meets no byte of the text. -/
theorem byteAt?_text_of_exec {i : Instr} {s t : State} (h : exec i s = .next t) {x : Nat}
    (hx : x ∈ s.cfg.programText) : byteAt? t.mem x = byteAt? s.mem x := by
  rcases (frame_of_exec h).mem with hmem | ⟨rt, rs, imm, w, -, -, htext, hmem⟩
  · rw [hmem]
  · rw [hmem]
    exact byteAt?_writeValue_of_notMem fun b hb hbx => htext b hb (hbx ▸ hx)

/-- Outside a delay slot the instruction just executed was no control transfer, so npc has gone on by 4 from
the npc that is now pc. -/
theorem sequential_of_exec {i : Instr} {s t : State} (h : exec i s = .next t)
    (hslot : t.inDelaySlot = false) : t.npc = t.pc + 4 := by
  have hframe := frame_of_exec h
  rw [hframe.pc]
  exact hframe.npc (hframe.inDelaySlot.symm.trans hslot)

/-- Settles O10: the stores keep the form of memory, the text is configuration, and R27 follows from where
every instruction goes on. -/
theorem everyStepKeepsTheInvariant : Obligations.EveryStepKeepsTheInvariant := by
  intro s t hs h
  obtain ⟨i, hexec⟩ := exec_of_step h
  exact
    { memory := wf_of_exec hexec hs.memory
      text := (cfg_of_step h).symm ▸ hs.text
      sequential := sequential_of_exec hexec }

/-- Settles O6. -/
theorem resetHasTheInvariant : Obligations.ResetHasTheInvariant :=
  ⟨fun _ _ htext hmem => { memory := hmem, text := htext, sequential := fun _ => rfl },
    { memory := reset_wf, text := List.Pairwise.nil, sequential := fun _ => rfl }⟩

/-- Settles O5. -/
theorem resetState : Obligations.ResetState :=
  fun _ _ => ⟨rfl, rfl, rfl, reg_zero _, rfl, fun _ => rfl⟩

/-- Settles O12, by induction on the length of the run. -/
theorem noStepChangesTheConfiguration : Obligations.NoStepChangesTheConfiguration := by
  intro k
  induction k with
  | zero =>
    intro s t h
    rw [runsTo_zero.mp h]
  | succ k ih =>
    intro s t h
    obtain ⟨u, hstep, hrun⟩ := runsTo_succ.mp h
    rw [ih u t hrun, cfg_of_step hstep]

theorem byteAt?_text_of_step {s t : State} (h : step s = .next t) {x : Nat}
    (hx : x ∈ s.cfg.programText) : byteAt? t.mem x = byteAt? s.mem x := by
  obtain ⟨i, hexec⟩ := exec_of_step h
  exact byteAt?_text_of_exec hexec hx

theorem byteAt?_text_of_runsTo {k : Nat} {s t : State} (h : RunsTo k s t) {x : Nat}
    (hx : x ∈ s.cfg.programText) : byteAt? t.mem x = byteAt? s.mem x := by
  induction k generalizing s with
  | zero => rw [runsTo_zero.mp h]
  | succ k ih =>
    obtain ⟨u, hstep, hrun⟩ := runsTo_succ.mp h
    rw [ih hrun ((cfg_of_step hstep).symm ▸ hx), byteAt?_text_of_step hstep hx]

/-- A step that goes on has fetched from the text only. -/
theorem text_of_step {s t : State} (h : step s = .next t) {k : Nat} (hk : k < 4) :
    s.pc.toNat + k ∈ s.cfg.programText := by
  obtain ⟨-, -, w, i, hfetch, -⟩ := step_eq_next.mp h
  obtain ⟨haligned, -, htext, -⟩ := fetch_eq_next.mp hfetch
  exact (forall_footprint haligned).mp htext k hk

/-- Settles O11: the text is part of the configuration, and its bytes are kept by induction on the run. -/
theorem programTextIsImmutable : Obligations.ProgramTextIsImmutable := by
  refine ⟨fun k s t h => ⟨?text, fun x hx => byteAt?_text_of_runsTo h hx⟩,
    fun s t h k hk => text_of_step h hk⟩
  case text => rw [noStepChangesTheConfiguration k s t h]

/-! ### What an instruction depends on (R24) -/

/-- A load reads the configuration, memory and the counter of draws, and nothing else of the state. -/
theorem readBytes_congr {s u : State} (hcfg : u.cfg = s.cfg) (hmem : u.mem = s.mem)
    (hdraws : u.draws = s.draws) (k : AccessKind) (as : List Word) :
    readBytes u k as = readBytes s k as := by
  induction as with
  | nil => rfl
  | cons a as ih => simp only [readBytes, readByte, ih, hcfg, hmem, hdraws]

theorem load_congr {s u : State} (hcfg : u.cfg = s.cfg) (hmem : u.mem = s.mem)
    (hdraws : u.draws = s.draws) (w : Width) (a : Word) : load w a u = load w a s := by
  simp only [load, checkAligned, checkMap, readValue, readBytes_congr hcfg hmem hdraws, hcfg]

/-- After the same write to `d`, two states that differ in `r` agree on `d` and on everything but `r`. -/
theorem reg_setReg_setReg {s : State} {r d q : Reg} {v x : Word} (h : d = q ∨ q ≠ r) :
    ((s.setReg r v).setReg d x).reg q = (s.setReg d x).reg q := by
  rcases h with rfl | hq
  · simp only [reg_setReg, if_true]
  · simp only [reg_setReg, if_neg hq]
    split <;> simp_all

theorem setOrDrawHiLo_setReg (s : State) (r : Reg) (v : Word) (o : Option (Word × Word)) :
    setOrDrawHiLo (s.setReg r v) o = (setOrDrawHiLo s o).setReg r v := by
  cases o <;> rfl

/-- Settles O15: every check, value and target reads the same without `r`, and what the instruction does to
the other fields is the same update. -/
theorem onlySourceRegistersMatter : Obligations.OnlySourceRegistersMatter := by
  intro i s t r v hr h
  have hsource {q : Reg} (hq : q ∈ sources i) : (s.setReg r v).reg q = s.reg q :=
    reg_setReg_of_ne fun hrq => hr (hrq ▸ hq)
  have hkeep {u : State} {q : Reg} (hdest : destination i = none)
      (hq : destination i = some q ∨ q ≠ r) : (u.setReg r v).reg q = u.reg q :=
    reg_setReg_of_ne (hq.resolve_left (by simp [hdest])).symm
  have hwrite {u : State} {d q : Reg} {x : Word} (hdest : destination i = some d)
      (hq : destination i = some q ∨ q ≠ r) :
      ((u.setReg r v).setReg d x).reg q = (u.setReg d x).reg q :=
    reg_setReg_setReg (hq.imp_left fun h => Option.some.inj (hdest.symm.trans h))
  cases Shape.of i with
  | @result _ d o f hdest _ ho hf hexec =>
    rw [hexec, unlessOverflow_eq_next, writeResult_eq_next] at h
    obtain ⟨hoverflow, rfl⟩ := h
    refine ⟨((s.setReg r v).setReg d (f s)).advance, ?_, fun q hq => hwrite hdest hq, rfl⟩
    rw [hexec, ho.setReg s r v hr, hf.setReg s r v hr, unlessOverflow_eq_next, writeResult_eq_next]
    exact ⟨hoverflow, rfl⟩
  | @hiLo _ f _ hdest _ hf hexec =>
    rw [hexec, next_eq_next] at h
    subst h
    refine ⟨((setOrDrawHiLo s (f s)).setReg r v).advance, ?_, fun q hq => hkeep hdest hq, rfl⟩
    rw [hexec, hf.setReg s r v hr, setOrDrawHiLo_setReg]
  | mthi rs =>
    cases h
    have hrs : (s.setReg r v).reg rs = s.reg rs := hsource (List.mem_singleton.mpr rfl)
    refine ⟨((s.setReg r v).setHiLo (s.reg rs) s.lo).advance, ?_, fun q hq => hkeep rfl hq, rfl⟩
    rw [← hrs]
    rfl
  | mtlo rs =>
    cases h
    have hrs : (s.setReg r v).reg rs = s.reg rs := hsource (List.mem_singleton.mpr rfl)
    refine ⟨((s.setReg r v).setHiLo s.hi (s.reg rs)).advance, ?_, fun q hq => hkeep rfl hq, rfl⟩
    rw [← hrs]
    rfl
  | nop =>
    cases h
    exact ⟨(s.setReg r v).advance, rfl, fun q hq => hkeep rfl hq, rfl⟩
  | mfc0 rt rd =>
    obtain ⟨hsupplied, rfl⟩ := exec_mfc0_eq_next.mp h
    exact ⟨_, exec_mfc0_eq_next.mpr ⟨hsupplied, rfl⟩,
      fun q hq => hwrite (u := (s.accessCp0 _).startMfc0Wait rt) rfl hq, rfl⟩
  | mtc0 rt rd =>
    obtain ⟨hsupplied, rfl⟩ := exec_mtc0_eq_next.mp h
    have hrt : (s.setReg r v).reg rt = s.reg rt := hsource (List.mem_singleton.mpr rfl)
    refine ⟨_, exec_mtc0_eq_next.mpr ⟨hsupplied, rfl⟩, fun q hq => hkeep rfl hq, ?_⟩
    rw [hrt]
    rfl
  | @load _ rt rs imm w extend hdest hsrc _ hexec =>
    rw [hexec, loadTo_eq_next] at h
    obtain ⟨x, hload, rfl⟩ := h
    have hea : (s.setReg r v).ea rs imm = s.ea rs imm :=
      congrArg (· + signImm imm) (hsource (by simp [hsrc]))
    refine ⟨(((s.afterRead w (s.ea rs imm)).setReg r v).setReg rt (extend x)).advance, ?_,
      fun q hq => hwrite (u := s.afterRead w (s.ea rs imm)) hdest hq, rfl⟩
    rw [hexec, hea, loadTo_eq_next]
    exact ⟨x, (load_congr (s := s) (u := s.setReg r v) rfl rfl rfl w _).trans hload, rfl⟩
  | @store _ rt rs imm w hstore hdest hsrc _ hexec =>
    rw [hexec, storeFrom_eq_next] at h
    obtain ⟨haligned, hmap, htext, rfl⟩ := h
    have hea : (s.setReg r v).ea rs imm = s.ea rs imm :=
      congrArg (· + signImm imm) (hsource (by simp [hsrc]))
    refine ⟨((s.setReg r v).writeValue w (s.ea rs imm) (s.reg rt)).advance, ?_,
      fun q hq => hkeep hdest hq, rfl⟩
    rw [hexec, hea, hsource (by simp [hsrc]), storeFrom_eq_next]
    exact ⟨haligned, hmap, htext, rfl⟩
  | @transfer _ target hdest _ htarget hexec =>
    rw [hexec, outsideDelaySlot_eq_next, next_eq_next] at h
    obtain ⟨hslot, rfl⟩ := h
    refine ⟨(s.setReg r v).transfer (target s), ?_, fun q hq => hkeep hdest hq, rfl⟩
    rw [hexec, htarget.setReg s r v hr]
    exact outsideDelaySlot_eq_next.mpr ⟨hslot, rfl⟩
  | @link _ target hdest _ htarget hexec =>
    rw [hexec, outsideDelaySlot_eq_next, next_eq_next] at h
    obtain ⟨hslot, rfl⟩ := h
    refine ⟨((s.setReg r v).setReg ra s.linkAddress).transfer (some (target s)), ?_,
      fun q hq => hwrite hdest hq, rfl⟩
    rw [hexec, htarget.setReg s r v hr]
    exact outsideDelaySlot_eq_next.mpr ⟨hslot, rfl⟩
  | jalrLinkRegister => exact absurd h (exec_jalrLinkRegister_ne_next s t)

/-- Settles O18: nothing that a form other than the two moves looks at is in coprocessor 0. -/
theorem onlyTheTwoMovesReachCoprocessor0 : Obligations.OnlyTheTwoMovesReachCoprocessor0 := by
  intro i s t c hmoves h
  cases Shape.of i with
  | result _ _ ho hf hexec =>
    rw [hexec, unlessOverflow_eq_next, writeResult_eq_next] at h
    obtain ⟨hoverflow, rfl⟩ := h
    refine ⟨rfl, rfl, ?_⟩
    rw [hexec, ho.withCp0 s c, hf.withCp0 s c, unlessOverflow_eq_next, writeResult_eq_next]
    exact ⟨hoverflow, rfl⟩
  | @hiLo _ f _ _ _ hf hexec =>
    rw [hexec, next_eq_next] at h
    subst h
    rw [hexec, hf.withCp0 s c]
    cases f s <;> exact ⟨rfl, rfl, rfl⟩
  | mthi rs =>
    cases h
    exact ⟨rfl, rfl, rfl⟩
  | mtlo rs =>
    cases h
    exact ⟨rfl, rfl, rfl⟩
  | nop =>
    cases h
    exact ⟨rfl, rfl, rfl⟩
  | mfc0 rt rd => exact absurd rfl (hmoves rt rd).1
  | mtc0 rt rd => exact absurd rfl (hmoves rt rd).2
  | load _ _ _ hexec =>
    rw [hexec, loadTo_eq_next] at h
    obtain ⟨x, hload, rfl⟩ := h
    refine ⟨rfl, rfl, (hexec _).trans (loadTo_eq_next.mpr ⟨x, ?_, rfl⟩)⟩
    exact (load_congr (s := s) (u := { s with cp0 := c }) rfl rfl rfl _ _).trans hload
  | store _ _ _ _ hexec =>
    rw [hexec, storeFrom_eq_next] at h
    obtain ⟨haligned, hmap, htext, rfl⟩ := h
    exact ⟨rfl, rfl, (hexec _).trans (storeFrom_eq_next.mpr ⟨haligned, hmap, htext, rfl⟩)⟩
  | transfer _ _ htarget hexec =>
    rw [hexec, outsideDelaySlot_eq_next, next_eq_next] at h
    obtain ⟨hslot, rfl⟩ := h
    refine ⟨rfl, rfl, ?_⟩
    rw [hexec, htarget.withCp0 s c]
    exact outsideDelaySlot_eq_next.mpr ⟨hslot, rfl⟩
  | link _ _ htarget hexec =>
    rw [hexec, outsideDelaySlot_eq_next, next_eq_next] at h
    obtain ⟨hslot, rfl⟩ := h
    refine ⟨rfl, rfl, ?_⟩
    rw [hexec, htarget.withCp0 s c]
    exact outsideDelaySlot_eq_next.mpr ⟨hslot, rfl⟩
  | jalrLinkRegister => exact absurd h (exec_jalrLinkRegister_ne_next s t)

end Sys2Proof.Proofs
end

section
/-! PROOFS. Control transfer (42_control_transfer.md R150 to R167): the ten control transfers inside and
outside a delay slot, their conditions and targets, and a call with its return. -/

namespace Sys2Proof.Proofs

open Sys2Proof.Machine Sys2Proof.Claims

/-! ### Targets (R88, R89, R151) -/

theorem pcBase_eq_pcValue (s : State) : s.pcBase = pcValue s := by
  unfold State.pcBase pcValue
  cases s.cfg.pcBase <;> rfl

/-- The signed count of instructions times 4 is its 30 low bits before two zeros. -/
theorem signImm_shiftLeft (imm : Imm) : signImm imm <<< 2 = imm.signExtend 30 ++ 0#2 := by
  apply BitVec.eq_of_getLsbD_eq
  intro i hi
  simp only [signImm, BitVec.getLsbD_shiftLeft, BitVec.getLsbD_append, BitVec.getLsbD_signExtend,
    BitVec.getLsbD_zero]
  by_cases hlow : i < 2
  case pos => simp [hlow]
  case neg => simp [hlow, hi, show i - 2 < 32 by omega, show i - 2 < 30 by omega]

theorem branchTarget_eq_bta (s : State) (imm : Imm) : s.branchTarget imm = bta s imm := by
  rw [State.branchTarget, bta, pcBase_eq_pcValue, signImm_shiftLeft]
  rfl

theorem jumpTarget_eq_jta (s : State) (addr : JumpField) : s.jumpTarget addr = jta s addr := by
  rw [State.jumpTarget, jta, pcBase_eq_pcValue]

/-! ### Outside a delay slot -/

theorem outsideDelaySlot_of_outside {s : State} {k : Res State} (hslot : s.inDelaySlot = false) :
    outsideDelaySlot s k = k := by
  simp [outsideDelaySlot, hslot]

/-- A branch goes to its target or falls through, by its condition. -/
theorem transfers_of_exec_eq_branchIf {i : Instr} {s : State} {c : Bool} {imm : Imm}
    (hslot : s.inDelaySlot = false) (hexec : exec i s = branchIf c imm s) :
    Transfers i s (if c then bta s imm else fallThrough s) := by
  rw [Transfers, hexec, branchIf, outsideDelaySlot_of_outside hslot, branchTarget_eq_bta]
  cases c <;> rfl

theorem transfers_of_exec {i : Instr} {s : State} {target : Word} (hslot : s.inDelaySlot = false)
    (hexec : exec i s = outsideDelaySlot s (.next (s.transfer (some target)))) :
    Transfers i s target := by
  rw [Transfers, hexec, outsideDelaySlot_of_outside hslot]
  rfl

theorem reg_setReg_ra (s : State) (v : Word) (q : Reg) :
    (s.setReg ra v).reg q = if q = ra then v else s.reg q := by
  by_cases hq : q = ra
  · rw [if_pos hq, hq, reg_setReg, if_neg (by decide), if_pos rfl]
  · rw [if_neg hq, reg_setReg_of_ne (Ne.symm hq)]

/-- JAL and JALR write the return address to register 31. -/
theorem links_of_exec {i : Instr} {s : State} {target : Word} (hslot : s.inDelaySlot = false)
    (hexec : exec i s = outsideDelaySlot s
      (.next ((s.setReg ra s.linkAddress).transfer (some target)))) : Links i s target :=
  ⟨(s.setReg ra s.linkAddress).transfer (some target),
    hexec.trans (outsideDelaySlot_of_outside hslot), reg_setReg_ra s s.linkAddress, fun _ => rfl, rfl⟩

/-! ### BEQ and BNE (R153, R154) -/

theorem transfers_beq {s : State} (hslot : s.inDelaySlot = false) (rs rt : Reg) (imm : Imm) :
    Transfers (.beq rs rt imm) s (if s.reg rs = s.reg rt then bta s imm else fallThrough s) := by
  have hbranch := transfers_of_exec_eq_branchIf (i := .beq rs rt imm) hslot rfl
  simpa only [decide_eq_true_eq] using hbranch

theorem transfers_bne {s : State} (hslot : s.inDelaySlot = false) (rs rt : Reg) (imm : Imm) :
    Transfers (.bne rs rt imm) s (if s.reg rs = s.reg rt then fallThrough s else bta s imm) := by
  have hbranch := transfers_of_exec_eq_branchIf (i := .bne rs rt imm) hslot rfl
  simpa only [decide_eq_true_eq, ne_eq, ite_not] using hbranch

/-- Settles O37. -/
theorem equalityBranches : Obligations.EqualityBranches :=
  fun _ rs rt imm hslot =>
    ⟨decodeWord_beq rs rt imm, transfers_beq hslot rs rt imm,
      decodeWord_bne rs rt imm, transfers_bne hslot rs rt imm⟩

/-! ### BGEZ, BGTZ, BLEZ, BLTZ (R155 to R158, R167) -/

theorem ltZero_iff (a : Word) : ltZero a = true ↔ a.getLsbD 31 = true := by
  have hmsb : ltZero a = a.msb := BitVec.msb_eq_toInt.symm
  rw [hmsb, BitVec.msb_eq_getLsbD_last]

theorem geZero_iff (a : Word) : geZero a = true ↔ ¬ a.getLsbD 31 = true := by
  rw [← ltZero_iff, geZero, ltZero, decide_eq_true_eq, decide_eq_true_eq, Int.not_lt]

theorem leZero_iff (a : Word) : leZero a = true ↔ a.getLsbD 31 = true ∨ a = 0 := by
  rw [← ltZero_iff, leZero, ltZero, decide_eq_true_eq, decide_eq_true_eq, Int.le_iff_lt_or_eq,
    ← BitVec.toInt_inj]
  rfl

theorem gtZero_iff (a : Word) : gtZero a = true ↔ ¬ (a.getLsbD 31 = true ∨ a = 0) := by
  rw [← leZero_iff, leZero, gtZero, decide_eq_true_eq, decide_eq_true_eq, Int.not_le]

theorem transfers_of_condition {i : Instr} {s : State} {c : Bool} {p : Prop} [Decidable p] {imm : Imm}
    (hslot : s.inDelaySlot = false) (hexec : exec i s = branchIf c imm s) (hp : c = true ↔ p) :
    Transfers i s (if p then bta s imm else fallThrough s) := by
  rw [← if_congr hp rfl rfl]
  exact transfers_of_exec_eq_branchIf hslot hexec

/-- Settles O38. -/
theorem signBranches : Obligations.SignBranches := by
  intro s rs x imm hslot
  refine ⟨decodeWord_bgez rs imm, ?bgez, decodeWord_bgtz rs x imm, ?bgtz,
    decodeWord_blez rs x imm, ?blez, decodeWord_bltz rs imm, ?bltz⟩
  case bgez =>
    rw [← ite_not]
    exact transfers_of_condition hslot rfl (geZero_iff _)
  case bgtz =>
    rw [← ite_not]
    exact transfers_of_condition hslot rfl (gtZero_iff _)
  case blez => exact transfers_of_condition hslot rfl (leZero_iff _)
  case bltz => exact transfers_of_condition hslot rfl (ltZero_iff _)

/-! ### J, JAL, JR, JALR (R159 to R162) -/

/-- Settles O39. -/
theorem regionJumps : Obligations.RegionJumps := by
  intro s addr hslot
  rw [← jumpTarget_eq_jta]
  exact ⟨decodeWord_j addr, transfers_of_exec hslot rfl, decodeWord_jal addr, links_of_exec hslot rfl⟩

/-- Settles O40. -/
theorem registerJumps : Obligations.RegisterJumps :=
  fun s rs x y hslot =>
    ⟨decodeWord_jr rs x y, transfers_of_exec hslot rfl, decodeWord_jalr rs x y,
      fun hrs => links_of_exec hslot (exec_jalr_of_ne hrs s)⟩

/-! ### Where a control transfer stops (R163, R164) -/

theorem outsideDelaySlot_of_inside {s : State} {k : Res State} (hslot : s.inDelaySlot = true) :
    outsideDelaySlot s k = .fault (.controlTransferInDelaySlot s.pc) := by
  simp [outsideDelaySlot, hslot]

/-- Every control transfer looks at the delay slot first. -/
theorem exec_of_inside {i : Instr} {s : State} (hct : isControlTransfer i = true)
    (hslot : s.inDelaySlot = true) : exec i s = .fault (.controlTransferInDelaySlot s.pc) := by
  have hseq {p : Prop} (h : isControlTransfer i = false) : p := absurd (h.symm.trans hct) (by decide)
  cases Shape.of i with
  | transfer _ _ _ hexec => rw [hexec, outsideDelaySlot_of_inside hslot]
  | link _ _ _ hexec => rw [hexec, outsideDelaySlot_of_inside hslot]
  | jalrLinkRegister => exact outsideDelaySlot_of_inside hslot
  | result _ h => exact hseq h
  | hiLo _ _ h => exact hseq h
  | load _ _ h => exact hseq h
  | store _ _ _ h => exact hseq h
  | mthi | mtlo | nop | mfc0 | mtc0 => exact hseq rfl

/-- Settles O41. -/
theorem controlTransferInDelaySlotStops : Obligations.ControlTransferInDelaySlotStops := by
  refine ⟨fun i s => exec_of_inside, fun s hslot => ?jalr⟩
  case jalr =>
    show execJalr ra s = _
    rw [execJalr, outsideDelaySlot_of_outside hslot, if_pos rfl]

/-! ### Alignment of targets (R165) -/

theorem add_four_aligned {a : Word} (h : a.toNat % 4 = 0) : (a + 4).toNat % 4 = 0 := by
  bv_omega

theorem append_two_zeros_aligned (x : BitVec 30) : (x ++ 0#2).toNat % 4 = 0 := by
  have hshift : (x ++ 0#2).toNat = x.toNat * 4 := by
    rw [BitVec.toNat_append, BitVec.toNat_ofNat, Nat.zero_mod, Nat.or_zero, Nat.shiftLeft_eq]
  omega

theorem add_aligned {a b : Word} (ha : a.toNat % 4 = 0) (hb : b.toNat % 4 = 0) :
    (a + b).toNat % 4 = 0 := by
  bv_omega

theorem pcValue_aligned {s : State} (h : s.pc.toNat % 4 = 0) : (pcValue s).toNat % 4 = 0 := by
  unfold pcValue
  split
  · exact h
  · exact add_four_aligned h

theorem bta_aligned {s : State} (imm : Imm) (h : s.pc.toNat % 4 = 0) : (bta s imm).toNat % 4 = 0 :=
  add_aligned (add_four_aligned (pcValue_aligned h)) (append_two_zeros_aligned _)

theorem jta_aligned (s : State) (addr : JumpField) : (jta s addr).toNat % 4 = 0 :=
  append_two_zeros_aligned _

theorem branchIf_aligned {c : Bool} {imm : Imm} {s t : State} (hpc : s.pc.toNat % 4 = 0)
    (hnpc : s.npc.toNat % 4 = 0) (h : branchIf c imm s = .next t) : t.npc.toNat % 4 = 0 := by
  obtain ⟨-, rfl⟩ := branchIf_eq_next.mp h
  rw [branchTarget_eq_bta]
  cases c
  case false => exact add_four_aligned hnpc
  case true => exact bta_aligned imm hpc

theorem npc_aligned_of_exec {i : Instr} {s t : State} (hct : isControlTransfer i = true)
    (hreg : ∀ rs, i ≠ .jr rs ∧ i ≠ .jalr rs) (hpc : s.pc.toNat % 4 = 0) (hnpc : s.npc.toNat % 4 = 0)
    (h : exec i s = .next t) : t.npc.toNat % 4 = 0 := by
  cases i with
  | beq => exact branchIf_aligned hpc hnpc h
  | bne => exact branchIf_aligned hpc hnpc h
  | bgez => exact branchIf_aligned hpc hnpc h
  | bgtz => exact branchIf_aligned hpc hnpc h
  | blez => exact branchIf_aligned hpc hnpc h
  | bltz => exact branchIf_aligned hpc hnpc h
  | j addr =>
    obtain ⟨-, ht⟩ := outsideDelaySlot_eq_next.mp h
    obtain rfl := next_eq_next.mp ht
    exact (jumpTarget_eq_jta s addr).symm ▸ jta_aligned s addr
  | jal addr =>
    obtain ⟨-, ht⟩ := outsideDelaySlot_eq_next.mp h
    obtain rfl := next_eq_next.mp ht
    exact (jumpTarget_eq_jta s addr).symm ▸ jta_aligned s addr
  | jr rs => exact absurd rfl (hreg rs).1
  | jalr rs => exact absurd rfl (hreg rs).2
  | _ => cases hct

/-- Settles O42: pc takes the old npc, and npc the target or the address after the delay slot. -/
theorem branchAndJumpTargetsAreAligned : Obligations.BranchAndJumpTargetsAreAligned := by
  intro i s t hct hreg hpc hnpc h
  refine ⟨?_, npc_aligned_of_exec hct hreg hpc hnpc h⟩
  rw [(frame_of_exec h).pc]
  exact hnpc

/-! ### A call and its return (R152) -/

theorem link_of_call {c : Instr} {s t : State} (hc : (∃ addr, c = .jal addr) ∨ ∃ rs, c = .jalr rs)
    (h : exec c s = .next t) : t.reg ra = s.linkAddress := by
  have hlink (target : Option Word) :
      ((s.setReg ra s.linkAddress).transfer target).reg ra = s.linkAddress :=
    reg_setReg_ra s s.linkAddress ra
  rcases hc with ⟨addr, rfl⟩ | ⟨rs, rfl⟩
  · obtain ⟨-, ht⟩ := outsideDelaySlot_eq_next.mp h
    exact next_eq_next.mp ht ▸ hlink _
  · by_cases hrs : rs = ra
    · exact absurd (hrs ▸ h) (exec_jalrLinkRegister_ne_next s t)
    · rw [exec_jalr_of_ne hrs, outsideDelaySlot_eq_next, next_eq_next] at h
      exact h.2 ▸ hlink _

/-- Settles O43: register 31 holds the return address from the call on, through a delay slot that leaves it
alone. -/
theorem callReturnsAfterItsDelaySlot : Obligations.CallReturnsAfterItsDelaySlot := by
  intro c d s t u v hc hcall hdest hslot hreturn
  have hnpc : v.npc = s.pc + s.cfg.linkOffset := by
    obtain ⟨-, hv⟩ := outsideDelaySlot_eq_next.mp hreturn
    calc v.npc = u.reg ra := congrArg State.npc (next_eq_next.mp hv)
      _ = t.reg ra := (frame_of_exec hslot).reg ra hdest
      _ = s.linkAddress := link_of_call hc hcall
  exact ⟨(frame_of_exec hcall).pc, hnpc, fun hoffset => by rw [hnpc, hoffset]⟩

end Sys2Proof.Proofs
end

section
/-! PROOFS. Arithmetic, AND and XOR, NOP, MUL, division and the moves to HI and LO (40_arithmetic.md R110 to
R121, 41_logical.md R130 and R136, 43_muldiv_hilo.md R180 to R190, 46_shift_nop.md R230), and the effective
address (20_memory.md R57). Sums and differences are read as integers through `BitVec.ofInt`, which fits them
into a word exactly when they do not overflow. -/

namespace Sys2Proof.Proofs

open Sys2Proof.Machine Sys2Proof.Claims

/-! ### ADDU, ADDIU, SUBU, AND, XOR (R111, R113, R119, R130, R136) -/

/-- Settles O19. -/
theorem unsignedAddSubResults : Obligations.UnsignedAddSubResults :=
  fun _ rs rt rd imm =>
    ⟨decodeWord_addu rs rt rd, writes_of_exec_eq_writeResult rfl,
      decodeWord_addiu rs rt imm, writes_of_exec_eq_writeResult rfl,
      decodeWord_subu rs rt rd, writes_of_exec_eq_writeResult rfl⟩

/-- Settles O24. -/
theorem andXorResults : Obligations.AndXorResults :=
  fun _ rs rt rd =>
    ⟨decodeWord_and rs rt rd, writes_of_exec_eq_writeResult rfl,
      decodeWord_xor rs rt rd, writes_of_exec_eq_writeResult rfl⟩

/-! ### ADD, ADDI, SUB (R110, R112, R118, R120) -/

/-- Settles O20: under wrap the overflow condition is not looked at. -/
theorem signedAddSubResultsWrap : Obligations.SignedAddSubResultsWrap :=
  fun _ rs rt rd imm hwrap =>
    ⟨decodeWord_add rs rt rd, writes_of_exec_eq_writeResult (unlessOverflow_wrap hwrap),
      decodeWord_addi rs rt imm, writes_of_exec_eq_writeResult (unlessOverflow_wrap hwrap),
      decodeWord_sub rs rt rd, writes_of_exec_eq_writeResult (unlessOverflow_wrap hwrap)⟩

theorem outsideSigned_iff (n : Int) : outsideSigned n = true ↔ n < -2147483648 ∨ 2147483647 < n := by
  simp [outsideSigned]

/-- An integer in the signed range is the value of its word. -/
theorem toInt_ofInt_of_inside {n : Int} (hlow : -2147483648 ≤ n) (hhigh : n ≤ 2147483647) :
    (BitVec.ofInt 32 n).toInt = n :=
  BitVec.toInt_ofInt_eq_self (by decide) (by omega) (by omega)

theorem add_eq_ofInt (a b : Word) : a + b = BitVec.ofInt 32 (a.toInt + b.toInt) := by
  rw [BitVec.ofInt_add, BitVec.ofInt_toInt, BitVec.ofInt_toInt]

theorem sub_eq_ofInt (a b : Word) : a - b = BitVec.ofInt 32 (a.toInt - b.toInt) := by
  rw [Int.sub_eq_add_neg, BitVec.ofInt_add, BitVec.ofInt_neg, BitVec.ofInt_toInt, BitVec.ofInt_toInt,
    BitVec.sub_eq_add_neg]

/-- An instruction with an overflow check, under refuse: it stops on exactly the integers that do not fit,
and writes the others. -/
theorem refuses_or_writes {i : Instr} {s : State} {d : Reg} {n : Int} (hrefuse : s.cfg.overflow = .refuse)
    (hexec : exec i s = unlessOverflow (outsideSigned n) s (writeResult d (BitVec.ofInt 32 n) s)) :
    (n < -2147483648 ∨ 2147483647 < n → exec i s = .fault (.signedOverflow s.pc)) ∧
    (-2147483648 ≤ n → n ≤ 2147483647 → ∃ v : Word, v.toInt = n ∧ Writes i s d v) := by
  constructor
  · intro hout
    rw [hexec, unlessOverflow, if_pos ⟨(outsideSigned_iff n).mpr hout, hrefuse⟩]
  · intro hlow hhigh
    have hinside : ¬ outsideSigned n = true := by
      rw [outsideSigned_iff]
      omega
    refine ⟨BitVec.ofInt 32 n, toInt_ofInt_of_inside hlow hhigh, writes_of_exec_eq_writeResult ?_⟩
    rw [hexec, unlessOverflow, if_neg fun h => hinside h.1]

theorem exec_add (rd rs rt : Reg) (s : State) :
    exec (.add rd rs rt) s = unlessOverflow (outsideSigned ((s.reg rs).toInt + (s.reg rt).toInt)) s
      (writeResult rd (BitVec.ofInt 32 ((s.reg rs).toInt + (s.reg rt).toInt)) s) := by
  rw [← add_eq_ofInt]
  rfl

theorem exec_addi (rt rs : Reg) (imm : Imm) (s : State) :
    exec (.addi rt rs imm) s = unlessOverflow (outsideSigned ((s.reg rs).toInt + imm.toInt)) s
      (writeResult rt (BitVec.ofInt 32 ((s.reg rs).toInt + imm.toInt)) s) := by
  rw [← toInt_signImm, ← add_eq_ofInt]
  rfl

theorem exec_sub (rd rs rt : Reg) (s : State) :
    exec (.sub rd rs rt) s = unlessOverflow (outsideSigned ((s.reg rs).toInt - (s.reg rt).toInt)) s
      (writeResult rd (BitVec.ofInt 32 ((s.reg rs).toInt - (s.reg rt).toInt)) s) := by
  rw [← sub_eq_ofInt]
  rfl

/-- Settles O21. -/
theorem signedAddSubRefuseOverflow : Obligations.SignedAddSubRefuseOverflow := by
  intro s rs rt rd imm hrefuse i d n hmem
  simp only [List.mem_cons, Prod.mk.injEq, List.not_mem_nil, or_false] at hmem
  rcases hmem with ⟨rfl, rfl, rfl⟩ | ⟨rfl, rfl, rfl⟩ | ⟨rfl, rfl, rfl⟩
  · exact refuses_or_writes hrefuse (exec_add d rs rt s)
  · exact refuses_or_writes hrefuse (exec_addi d rs imm s)
  · exact refuses_or_writes hrefuse (exec_sub d rs rt s)

/-! ### The effective address (R57, R200) -/

theorem signImm_eq_ofInt (imm : Imm) : signImm imm = BitVec.ofInt 32 imm.toInt := by
  rw [← toInt_signImm, BitVec.ofInt_toInt]

/-- Settles O44: base and displacement are added as integers, and the word is the sum modulo 2^32. -/
theorem effectiveAddressIsModular : Obligations.EffectiveAddressIsModular := by
  intro s rs imm
  have hsum : s.ea rs imm = BitVec.ofInt 32 ((s.reg rs).toNat + imm.toInt) := by
    rw [BitVec.ofInt_add, BitVec.ofInt_natCast, BitVec.ofNat_toNat, BitVec.setWidth_eq, ← signImm_eq_ofInt]
    rfl
  rw [hsum, BitVec.toNat_ofInt]
  exact Int.toNat_of_nonneg (Int.emod_nonneg _ (by decide))

/-! ### NOP (R230) -/

/-- Settles O29. -/
theorem nopOnlyAdvances : Obligations.NopOnlyAdvances := ⟨decodeWord_zero, fun _ => rfl⟩

/-! ### MUL, MTHI, MTLO (R183, R185, R188) -/

theorem mul_eq_ofNat (a b : Word) : a * b = BitVec.ofNat 32 (a.toNat * b.toNat) := rfl

theorem mul_eq_ofInt (a b : Word) : a * b = BitVec.ofInt 32 (a.toInt * b.toInt) := by
  rw [BitVec.ofInt_mul, BitVec.ofInt_toInt, BitVec.ofInt_toInt]

/-- Settles O31: the low word of the two products is the same. -/
theorem singleWordProduct : Obligations.SingleWordProduct := by
  intro s rs rt rd
  rw [← mul_eq_ofNat, ← mul_eq_ofInt]
  exact ⟨decodeWord_mul rs rt rd, writes_of_exec_eq_writeResult rfl, writes_of_exec_eq_writeResult rfl⟩

/-- Settles O36. -/
theorem movesToHiLo : Obligations.MovesToHiLo :=
  fun _ r x y =>
    ⟨decodeWord_mthi r x y, writesHiLo_of_exec_eq_setHiLo rfl,
      decodeWord_mtlo r x y, writesHiLo_of_exec_eq_setHiLo rfl⟩

/-! ### Division (R180, R181, R189, R190) -/

/-- Settles O34. -/
theorem divisionByZeroDraws : Obligations.DivisionByZeroDraws := by
  intro s rs rt hzero i hi
  simp only [List.mem_cons, List.not_mem_nil, or_false] at hi
  rcases hi with rfl | rfl
  · rw [exec_div, divided, if_pos (.inl hzero)]
    rfl
  · rw [exec_divu, dividedUnsigned, if_pos hzero]
    rfl

theorem writesHiLo_divu {s : State} {rs rt : Reg} (hrt : s.reg rt ≠ 0) :
    WritesHiLo (.divu rs rt) s (BitVec.ofNat 32 ((s.reg rs).toNat % (s.reg rt).toNat))
      (BitVec.ofNat 32 ((s.reg rs).toNat / (s.reg rt).toNat)) := by
  apply writesHiLo_of_exec_eq_setHiLo
  rw [exec_divu, dividedUnsigned, if_neg hrt]
  rfl

theorem toNat_ofNat_of_le {n : Nat} {a : Word} (h : n ≤ a.toNat) : (BitVec.ofNat 32 n).toNat = n := by
  rw [BitVec.toNat_ofNat]
  exact Nat.mod_eq_of_lt (Nat.lt_of_le_of_lt h a.isLt)

/-- Settles O33: quotient and remainder are at most the dividend, so both fit. -/
theorem unsignedDivisionResults : Obligations.UnsignedDivisionResults := by
  intro s rs rt x hrt
  have hpos : 0 < (s.reg rt).toNat := Nat.pos_of_ne_zero fun h => hrt (BitVec.eq_of_toNat_eq h)
  refine ⟨decodeWord_divu rs rt x, _, _, writesHiLo_divu hrt, ?_, ?_⟩
  · rw [toNat_ofNat_of_le (Nat.mod_le _ _), toNat_ofNat_of_le (Nat.div_le_self _ _)]
    exact (Nat.div_add_mod' _ _).symm
  · rw [toNat_ofNat_of_le (Nat.mod_le _ _)]
    exact Nat.mod_lt _ hpos

theorem toInt_bounds (a : Word) : -2147483648 ≤ a.toInt ∧ a.toInt ≤ 2147483647 := by
  have hlow := BitVec.le_toInt a
  have hhigh := BitVec.toInt_lt (x := a)
  omega

/-- Every quotient toward zero fits but that of the least word by -1: a divisor of absolute value 2 or more
halves the dividend at least. -/
theorem tdiv_bounds {a b : Int} (hlow : -2147483648 ≤ a) (hhigh : a ≤ 2147483647)
    (hfits : ¬ (a = -2147483648 ∧ b = -1)) :
    -2147483648 ≤ a.tdiv b ∧ a.tdiv b ≤ 2147483647 := by
  by_cases hb : 2 ≤ b.natAbs
  · have habs : (a.tdiv b).natAbs = a.natAbs / b.natAbs := Int.natAbs_tdiv a b
    have hhalf : a.natAbs / b.natAbs ≤ a.natAbs / 2 := Nat.div_le_div_left hb (by decide)
    omega
  · obtain rfl | rfl | rfl : b = 0 ∨ b = 1 ∨ b = -1 := by omega
    · rw [Int.tdiv_zero]
      decide
    · rw [Int.tdiv_one]
      exact ⟨hlow, hhigh⟩
    · rw [Int.tdiv_neg, Int.tdiv_one]
      omega

theorem natAbs_tmod_lt {a b : Int} (hb : b ≠ 0) : (a.tmod b).natAbs < b.natAbs := by
  rw [Int.natAbs_tmod]
  exact Nat.mod_lt _ (Int.natAbs_pos.mpr hb)

theorem tmod_nonpos {a : Int} (b : Int) (ha : a ≤ 0) : a.tmod b ≤ 0 := by
  have hneg : 0 ≤ (-a).tmod b := Int.tmod_nonneg b (by omega)
  rw [Int.neg_tmod] at hneg
  omega

theorem quotient_eq_tdiv (r : DivRounding) (a b : Int) : quotient r a b = a.tdiv b := by
  cases r
  rfl

theorem remainder_eq_tmod (r : DivRounding) (a b : Int) : remainder r a b = a.tmod b := by
  cases r
  rfl

theorem divOverflows_iff (a b : Word) :
    divOverflows a b = true ↔ a = 0x80000000#32 ∧ b = 0xFFFFFFFF#32 := by
  simp [divOverflows]

/-- A signed division that is not drawn. -/
theorem writesHiLo_div {s : State} {rs rt : Reg} (hrt : s.reg rt ≠ 0)
    (hfixed : ¬ (divOverflows (s.reg rs) (s.reg rt) = true ∧ s.cfg.divOverflow = .draw)) :
    WritesHiLo (.div rs rt) s (BitVec.ofInt 32 ((s.reg rs).toInt.tmod (s.reg rt).toInt))
      (BitVec.ofInt 32 ((s.reg rs).toInt.tdiv (s.reg rt).toInt)) := by
  apply writesHiLo_of_exec_eq_setHiLo
  rw [exec_div, divided, if_neg (not_or.mpr ⟨hrt, hfixed⟩), quotient_eq_tdiv, remainder_eq_tmod]
  rfl

/-- Quotient and remainder of words, where the quotient fits. -/
theorem signedDivision {a b : Word} (hb : b ≠ 0) (hfits : ¬ (a = 0x80000000#32 ∧ b = 0xFFFFFFFF#32)) :
    (BitVec.ofInt 32 (a.toInt.tdiv b.toInt)).toInt = a.toInt.tdiv b.toInt ∧
    (BitVec.ofInt 32 (a.toInt.tmod b.toInt)).toInt = a.toInt.tmod b.toInt := by
  obtain ⟨hlow, hhigh⟩ := toInt_bounds a
  obtain ⟨hlow', hhigh'⟩ := toInt_bounds b
  have hrem := natAbs_tmod_lt (a := a.toInt) fun h => hb (BitVec.toInt_inj.mp h)
  have hquot := tdiv_bounds (b := b.toInt) hlow hhigh fun ⟨ha, hb⟩ =>
    hfits ⟨BitVec.toInt_inj.mp ha, BitVec.toInt_inj.mp hb⟩
  exact ⟨toInt_ofInt_of_inside hquot.1 hquot.2, toInt_ofInt_of_inside (by omega) (by omega)⟩

/-- Settles O32. -/
theorem signedDivisionResults : Obligations.SignedDivisionResults := by
  intro s rs rt x hrt
  refine ⟨decodeWord_div rs rt x, fun hfits => ?fits,
    fun hrs hrt' => ⟨fun hfixed => ?fixed, fun hdraw => ?draw⟩⟩
  case fits =>
    obtain ⟨hquot, hrem⟩ := signedDivision hrt hfits
    refine ⟨_, _, writesHiLo_div hrt fun h => hfits ((divOverflows_iff _ _).mp h.1), ?_⟩
    rw [hquot, hrem]
    exact ⟨(Int.tdiv_mul_add_tmod _ _).symm, natAbs_tmod_lt fun h => hrt (BitVec.toInt_inj.mp h),
      Int.tmod_nonneg _, tmod_nonpos _⟩
  case fixed =>
    have hwrites := writesHiLo_div (rs := rs) hrt fun h => absurd (hfixed.symm.trans h.2) (by decide)
    rw [hrs, hrt'] at hwrites
    exact hwrites
  case draw =>
    rw [exec_div, divided, if_pos (.inr ⟨(divOverflows_iff _ _).mpr ⟨hrs, hrt'⟩, hdraw⟩)]
    rfl

end Sys2Proof.Proofs
end

section
/-! PROOFS. Loads and stores that complete (20_memory.md R51 to R66, 44_load_store.md R200 to R208): one lemma
for every load, from ram, shared memory or both, and one for every store. -/

namespace Sys2Proof.Proofs

open Sys2Proof.Machine Sys2Proof.Claims

/-! ### Reading -/

theorem memoryByte_of_readsAs {s : State} {a : Word} {b : Byte} (h : ReadsAs s a b) : MemoryByte s a :=
  h.imp And.left And.left

theorem readByte_of_readsAs {s : State} {a : Word} {b : Byte} (k : AccessKind) (h : ReadsAs s a b) :
    readByte s k a = .next b := by
  rcases h with ⟨hram, hb⟩ | ⟨hshared, rfl⟩
  · exact readByte_ram hram hb
  · exact readByte_shared hshared

theorem readBytes_of_readsAs {s : State} {as : List Word} {bs : List Byte} (k : AccessKind)
    (h : List.Forall₂ (ReadsAs s) as bs) : readBytes s k as = .next bs := by
  induction h with
  | nil => rfl
  | cons hb _ ih => rw [readBytes, readByte_of_readsAs k hb, ih, andThen_next, andThen_next]

theorem memoryByte_of_forall₂ {s : State} {as : List Word} {bs : List Byte}
    (h : List.Forall₂ (ReadsAs s) as bs) : ∀ a ∈ as, MemoryByte s a := by
  induction h with
  | nil => simp
  | cons hb _ ih => exact List.forall_mem_cons.mpr ⟨memoryByte_of_readsAs hb, ih⟩

theorem readValue_of_readsAs {s : State} {w : Width} {a : Word} {bs : List Byte} (k : AccessKind)
    (h : List.Forall₂ (ReadsAs s) (footprint w a) bs) :
    readValue s k w a = .next (joinBytes s.cfg.byteOrder bs) := by
  rw [readValue, readBytes_of_readsAs k h, andThen_next]

theorem load_of_readsAs {s : State} {w : Width} {a : Word} {bs : List Byte} (haligned : aligned w a = true)
    (h : List.Forall₂ (ReadsAs s) (footprint w a) bs) :
    load w a s = .next (joinBytes s.cfg.byteOrder bs) :=
  load_eq_next.mpr ⟨haligned, memoryByte_of_forall₂ h, readValue_of_readsAs .load h⟩

/-- The counter of draws after a read, as the statements write it. -/
theorem drawsAfter_eq (s : State) (w : Width) (a : Word) :
    drawsAfter s a w.bytes = (s.afterRead w a).draws := by
  rw [afterRead_draws, touchesShared, footprint_eq_map, List.any_map]
  rfl

theorem drawsAfter_of_ramBytes {s : State} {w : Width} {a : Word} {bs : List Byte}
    (h : List.Forall₂ (RamByte s) (footprint w a) bs) : drawsAfter s a w.bytes = s.draws := by
  have hram : ∀ b ∈ footprint w a, regionAt s.cfg.memMap b.toNat = some .ram := by
    generalize footprint w a = as at h
    induction h with
    | nil => simp
    | cons hb _ ih => exact List.forall_mem_cons.mpr ⟨hb.1, ih⟩
  rw [drawsAfter_eq, afterRead_ram hram]

/-! ### Every load -/

/-- A load of readable bytes writes the value they join to, extended, and draws if one was shared. -/
theorem writesDrawing_of_readsAs {i : Instr} {s : State} {rt : Reg} {w : Width} {a v : Word}
    {extend : Word → Word} {bs : List Byte} (hexec : exec i s = loadTo rt w a extend s)
    (haligned : aligned w a = true) (hbytes : List.Forall₂ (ReadsAs s) (footprint w a) bs)
    (hv : extend (joinBytes s.cfg.byteOrder bs) = v) :
    WritesDrawing i s rt v (drawsAfter s a w.bytes) := by
  rw [drawsAfter_eq]
  refine ⟨((s.afterRead w a).setReg rt v).advance, ?next, fun hrt => ?written,
    fun q hq => reg_setReg_of_ne (Ne.symm hq), fun _ => rfl, rfl⟩
  case next =>
    rw [hexec, loadTo_eq_next]
    exact ⟨_, load_of_readsAs haligned hbytes, hv ▸ rfl⟩
  case written => exact (reg_setReg _ rt rt v).trans ((if_neg hrt).trans (if_pos rfl))

/-- Without a draw, nothing but the register changes. -/
theorem writes_of_writesDrawing {i : Instr} {s : State} {r : Reg} {v : Word} {d : Nat} (hd : d = s.draws)
    (h : WritesDrawing i s r v d) : Writes i s r v := by
  subst hd
  exact h

theorem writes_of_ramBytes {i : Instr} {s : State} {rt : Reg} {w : Width} {a v : Word}
    {extend : Word → Word} {bs : List Byte} (hexec : exec i s = loadTo rt w a extend s)
    (haligned : aligned w a = true) (hbytes : List.Forall₂ (RamByte s) (footprint w a) bs)
    (hv : extend (joinBytes s.cfg.byteOrder bs) = v) : Writes i s rt v :=
  writes_of_writesDrawing (drawsAfter_of_ramBytes hbytes)
    (writesDrawing_of_readsAs hexec haligned (hbytes.imp fun _ _ => .inl) hv)

/-! ### The three widths -/

theorem aligned_byte (a : Word) : aligned .byte a = true := aligned_iff.mpr (Nat.mod_one _)

theorem forall₂_byte {r : Word → Byte → Prop} {a : Word} {b : Byte} (h : r a b) :
    List.Forall₂ r (footprint .byte a) [b] :=
  .cons h .nil

theorem forall₂_half {r : Word → Byte → Prop} {a : Word} {b0 b1 : Byte} (h0 : r a b0) (h1 : r (a + 1) b1) :
    List.Forall₂ r (footprint .half a) [b0, b1] :=
  .cons h0 (.cons h1 .nil)

theorem footprint_word_eq (a : Word) : footprint .word a = [a, a + 1, a + 2, a + 3] := by
  simp [BitVec.add_assoc]

theorem forall₂_word {r : Word → Byte → Prop} {a : Word} {b0 b1 b2 b3 : Byte} (h0 : r a b0)
    (h1 : r (a + 1) b1) (h2 : r (a + 2) b2) (h3 : r (a + 3) b3) :
    List.Forall₂ r (footprint .word a) [b0, b1, b2, b3] := by
  rw [footprint_word_eq]
  exact .cons h0 (.cons h1 (.cons h2 (.cons h3 .nil)))

theorem joinBytes_byte (o : ByteOrder) (b : Byte) : (joinBytes o [b]).setWidth 8 = b := by
  cases o <;>
  · simp [joinBytes, joinLow]

theorem joinBytes_half (o : ByteOrder) (b0 b1 : Byte) :
    (joinBytes o [b0, b1]).setWidth 16 = halfOf o b0 b1 := by
  cases o <;>
  · apply BitVec.eq_of_getLsbD_eq
    intro i hi
    simp only [joinBytes, joinLow, halfOf, List.reverse_cons, List.reverse_nil, List.nil_append,
      List.cons_append, BitVec.getLsbD_or, BitVec.getLsbD_shiftLeft, BitVec.getLsbD_setWidth,
      BitVec.getLsbD_append, BitVec.getLsbD_zero]
    grind

/-- Settles O48. -/
theorem loadsFromSharedMemoryComplete : Obligations.LoadsFromSharedMemoryComplete := by
  intro s rt rs imm
  refine ⟨fun b hb => ⟨?lb, ?lbu⟩, fun b0 b1 heven hb0 hb1 => ⟨?lh, ?lhu⟩,
    fun b0 b1 b2 b3 hfour hb0 hb1 hb2 hb3 => ?lw⟩
  case lb =>
    exact writesDrawing_of_readsAs rfl (aligned_byte _) (forall₂_byte hb)
      (congrArg (BitVec.signExtend 32) (joinBytes_byte _ b))
  case lbu =>
    exact writesDrawing_of_readsAs rfl (aligned_byte _) (forall₂_byte hb)
      (congrArg (BitVec.setWidth 32) (joinBytes_byte _ b))
  case lh =>
    exact writesDrawing_of_readsAs rfl (aligned_iff.mpr heven) (forall₂_half hb0 hb1)
      (congrArg (BitVec.signExtend 32) (joinBytes_half _ b0 b1))
  case lhu =>
    exact writesDrawing_of_readsAs rfl (aligned_iff.mpr heven) (forall₂_half hb0 hb1)
      (congrArg (BitVec.setWidth 32) (joinBytes_half _ b0 b1))
  case lw =>
    exact writesDrawing_of_readsAs rfl (aligned_iff.mpr hfour) (forall₂_word hb0 hb1 hb2 hb3)
      (joinBytes_word _ b0 b1 b2 b3)

/-- Settles O45. -/
theorem loadByteResults : Obligations.LoadByteResults := by
  intro s rt rs imm
  refine ⟨decodeWord_lb rs rt imm, decodeWord_lbu rs rt imm, fun b hb => ⟨?lb, ?lbu⟩⟩
  case lb =>
    exact writes_of_ramBytes rfl (aligned_byte _) (forall₂_byte hb)
      (congrArg (BitVec.signExtend 32) (joinBytes_byte _ b))
  case lbu =>
    exact writes_of_ramBytes rfl (aligned_byte _) (forall₂_byte hb)
      (congrArg (BitVec.setWidth 32) (joinBytes_byte _ b))

/-- Settles O46. -/
theorem loadHalfwordResults : Obligations.LoadHalfwordResults := by
  intro s rt rs imm
  refine ⟨decodeWord_lh rs rt imm, decodeWord_lhu rs rt imm, fun b0 b1 heven hb0 hb1 => ⟨?lh, ?lhu⟩⟩
  case lh =>
    exact writes_of_ramBytes rfl (aligned_iff.mpr heven) (forall₂_half hb0 hb1)
      (congrArg (BitVec.signExtend 32) (joinBytes_half _ b0 b1))
  case lhu =>
    exact writes_of_ramBytes rfl (aligned_iff.mpr heven) (forall₂_half hb0 hb1)
      (congrArg (BitVec.setWidth 32) (joinBytes_half _ b0 b1))

/-- LW of a word of ram, whose bytes join to the value. -/
theorem writes_lw {s : State} {rt rs : Reg} {imm : Imm} {a v : Word} {bs : List Byte}
    (hea : s.ea rs imm = a) (haligned : aligned .word a = true)
    (hbytes : List.Forall₂ (RamByte s) (footprint .word a) bs)
    (hv : joinBytes s.cfg.byteOrder bs = v) : Writes (.lw rt rs imm) s rt v := by
  subst hea
  exact writes_of_ramBytes rfl haligned hbytes hv

/-- Settles O47. -/
theorem loadWordResult : Obligations.LoadWordResult := by
  intro s rt rs imm
  refine ⟨decodeWord_lw rs rt imm, fun b0 b1 b2 b3 hfour hb0 hb1 hb2 hb3 => ?_⟩
  exact writes_lw rfl (aligned_iff.mpr hfour) (forall₂_word hb0 hb1 hb2 hb3) (joinBytes_word _ b0 b1 b2 b3)

/-! ### Stores -/

/-- A store to memory that is not text stores the bytes of its width and goes on. -/
theorem stores_of_exec {i : Instr} {s : State} {w : Width} {a v : Word}
    (hexec : exec i s = storeFrom w a v s) (haligned : aligned w a = true)
    (hmap : ∀ b ∈ footprint w a, MemoryByte s b)
    (htext : ∀ b ∈ footprint w a, b.toNat ∉ s.cfg.programText) :
    Stores i s a (splitBytes s.cfg.byteOrder w.bytes v) := by
  refine ⟨(s.writeValue w a v).advance, ?_, fun x => ?_, rfl⟩
  · rw [hexec, storeFrom_eq_next]
    exact ⟨haligned, hmap, htext, rfl⟩
  · rw [advance_mem, byteAt?_writeValue haligned, length_splitBytes]

theorem forall_mem_footprint {w : Width} {a : Word} {p : Word → Prop} :
    (∀ b ∈ footprint w a, p b) ↔ ∀ k, k < w.bytes → p (a + BitVec.ofNat 32 k) := by
  simp only [mem_footprint, forall_exists_index, and_imp]
  exact ⟨fun h k hk => h _ k hk rfl, fun h b k hk hb => hb ▸ h k hk⟩

/-- Settles O50. -/
theorem storeByteResult : Obligations.StoreByteResult := by
  intro s rt rs imm
  refine ⟨decodeWord_sb rs rt imm, fun hmap htext => ?_⟩
  have hstores := stores_of_exec (i := .sb rt rs imm) (s := s) (w := .byte) rfl
    (aligned_iff.mpr (Nat.mod_one _)) (by simpa using hmap) (by simpa using htext)
  rwa [Width.bytes, splitBytes_byte] at hstores

/-- Settles O51. -/
theorem storeHalfwordResult : Obligations.StoreHalfwordResult := by
  intro s rt rs imm
  refine ⟨decodeWord_sh rs rt imm, fun heven hmap0 hmap1 htext => ?_⟩
  have haligned : aligned .half (s.ea rs imm) = true := aligned_iff.mpr heven
  have hstores := stores_of_exec (i := .sh rt rs imm) (s := s) (w := .half) rfl haligned
    (by simpa using ⟨hmap0, hmap1⟩) ((forall_footprint (p := (· ∉ s.cfg.programText)) haligned).mpr htext)
  rwa [Width.bytes, splitBytes_eq_inOrder, splitLow_half] at hstores

/-- Settles O52. -/
theorem storeWordResult : Obligations.StoreWordResult := by
  intro s rt rs imm
  refine ⟨decodeWord_sw rs rt imm, fun hfour hmap htext => ?_⟩
  have haligned : aligned .word (s.ea rs imm) = true := aligned_iff.mpr hfour
  have hstores := stores_of_exec (i := .sw rt rs imm) (s := s) (w := .word) rfl haligned
    (forall_mem_footprint.mpr hmap) ((forall_footprint (p := (· ∉ s.cfg.programText)) haligned).mpr htext)
  rwa [Width.bytes, splitBytes_eq_inOrder, splitLow_word] at hstores

/-! ### A load after a store (R60) -/

theorem exec_sw_eq_next {rt rs : Reg} {imm : Imm} {s t : State} (h : exec (.sw rt rs imm) s = .next t) :
    aligned .word (s.ea rs imm) = true ∧
      t = (s.writeValue .word (s.ea rs imm) (s.reg rt)).advance := by
  obtain ⟨haligned, -, -, ht⟩ := storeFrom_eq_next.mp h
  exact ⟨haligned, ht⟩

/-- After an aligned store of a word to ram, each of its bytes is a byte of ram that holds its value. -/
theorem ramByte_writeValue {s : State} {w : Width} {a v : Word} {k : Nat} (haligned : aligned w a = true)
    (hk : k < w.bytes) (hram : regionAt s.cfg.memMap (a.toNat + k) = some .ram) {b : Byte}
    (hb : (splitBytes s.cfg.byteOrder w.bytes v)[k]? = some b) :
    RamByte (s.writeValue w a v).advance (a + BitVec.ofNat 32 k) b := by
  rw [RamByte, advance_mem, advance_cfg, writeValue_cfg, toNat_add_of_aligned haligned hk,
    byteAt?_writeValue haligned, if_pos (by omega), Nat.add_sub_cancel_left]
  exact ⟨hram, hb⟩

theorem forall₂_ramByte_writeValue {s : State} {w : Width} {a v : Word} (haligned : aligned w a = true)
    (hram : ∀ k, k < w.bytes → regionAt s.cfg.memMap (a.toNat + k) = some .ram) :
    List.Forall₂ (RamByte (s.writeValue w a v).advance) (footprint w a)
      (splitBytes s.cfg.byteOrder w.bytes v) := by
  have hlen := length_splitBytes s.cfg.byteOrder w.bytes v
  rw [footprint_eq_map, List.forall₂_map_left_iff, List.forall₂_iff_get]
  refine ⟨by rw [List.length_range, hlen], fun k hk hk' => ?_⟩
  rw [List.get_eq_getElem, List.getElem_range]
  exact ramByte_writeValue haligned (hlen ▸ hk') (hram k (hlen ▸ hk')) (List.getElem?_eq_getElem hk')

/-- The byte of a word at place `k` of the byte order (R52, R53). -/
theorem getElem?_splitBytes_word {o : ByteOrder} {v : Word} {k : Nat} (hk : k < 4) :
    (splitBytes o 4 v)[k]? = some (v.extractLsb' (8 * if o = .little then k else 3 - k) 8) := by
  rw [splitBytes_eq_inOrder, splitLow_word]
  obtain rfl | rfl | rfl | rfl : k = 0 ∨ k = 1 ∨ k = 2 ∨ k = 3 := by omega
  all_goals cases o <;> rfl

theorem joinBytes_splitBytes_word (o : ByteOrder) (v : Word) : joinBytes o (splitBytes o 4 v) = v := by
  rw [splitBytes_eq_inOrder, splitLow_word, joinBytes_inOrder_bytes]

/-- Settles O53. -/
theorem loadSeesTheLatestStore : Obligations.LoadSeesTheLatestStore := by
  intro s t rt rs base d imm off k hk hram h
  obtain ⟨haligned, rfl⟩ := exec_sw_eq_next h
  refine ⟨fun hea => ?lw, fun hea => ?lbu⟩
  case lw =>
    exact writes_lw hea haligned (forall₂_ramByte_writeValue haligned hram)
      (joinBytes_splitBytes_word _ (s.reg rt))
  case lbu =>
    have hbyte := ramByte_writeValue (v := s.reg rt) haligned hk (hram k hk) (getElem?_splitBytes_word hk)
    rw [← hea] at hbyte
    exact ((loadByteResults _ d base off).2.2 _ hbyte).2

/-! ### A load into register 0 (R22, R66) -/

/-- The loads of a list place have one width and one extension, whatever register they write. -/
theorem exec_load_of_getElem? (rs : Reg) (imm : Imm) (k : Nat) :
    ∃ w extend, ∀ rt i n, (loads rt rs imm)[k]? = some (i, n) →
      n = w.bytes ∧ destination i = some rt ∧ ∀ s, exec i s = loadTo rt w (s.ea rs imm) extend s := by
  match k with
  | 0 => exact ⟨.byte, _, by rintro rt _ _ ⟨⟩; exact ⟨rfl, rfl, fun _ => rfl⟩⟩
  | 1 => exact ⟨.byte, _, by rintro rt _ _ ⟨⟩; exact ⟨rfl, rfl, fun _ => rfl⟩⟩
  | 2 => exact ⟨.half, _, by rintro rt _ _ ⟨⟩; exact ⟨rfl, rfl, fun _ => rfl⟩⟩
  | 3 => exact ⟨.half, _, by rintro rt _ _ ⟨⟩; exact ⟨rfl, rfl, fun _ => rfl⟩⟩
  | 4 => exact ⟨.word, _, by rintro rt _ _ ⟨⟩; exact ⟨rfl, rfl, fun _ => rfl⟩⟩
  | _ + 5 => exact ⟨.word, id, by rintro rt _ _ ⟨⟩⟩

theorem loadTo_completes_iff {rt : Reg} {w : Width} {a : Word} {extend : Word → Word} {s : State} :
    (∃ t, loadTo rt w a extend s = .next t) ↔ ∃ v, load w a s = .next v := by
  simp only [loadTo_eq_next]
  exact ⟨fun ⟨_, v, hv, _⟩ => ⟨v, hv⟩, fun ⟨v, hv⟩ => ⟨_, v, hv, rfl⟩⟩

/-- Settles O49: whether a load completes is settled by its access, which the register takes no part in. -/
theorem loadIntoZeroPerformsItsAccess : Obligations.LoadIntoZeroPerformsItsAccess := by
  intro s rt rs imm k i j n hi hj
  obtain ⟨w, extend, hload⟩ := exec_load_of_getElem? rs imm k
  obtain ⟨-, hdest, hexec⟩ := hload 0 i n hi
  obtain ⟨-, -, hexec'⟩ := hload rt j n hj
  refine ⟨?_, fun t h => registerZeroDiscardsWrites i s t h hdest⟩
  rw [hexec, hexec', loadTo_completes_iff, loadTo_completes_iff]

end Sys2Proof.Proofs
end

section
/-! PROOFS. Accesses that stop (20_memory.md R54, R58, R63, R34, 44_load_store.md R209), in the order of the
checks (60_exceptions.md R253): alignment, the map, the program text of a store, the bytes a load reads. What
the map check and the read do is said for any kind of access, so that the fetch uses it too. -/

namespace Sys2Proof.Proofs

open Sys2Proof.Machine Sys2Proof.Claims

/-! ### Loads and stores as accesses -/

theorem exec_load_of_mem {rt rs : Reg} {imm : Imm} {i : Instr} {n : Nat} (h : (i, n) ∈ loads rt rs imm) :
    ∃ w extend, n = w.bytes ∧ ∀ s, exec i s = loadTo rt w (s.ea rs imm) extend s := by
  obtain ⟨k, hk⟩ := List.mem_iff_getElem?.mp h
  obtain ⟨w, extend, hload⟩ := exec_load_of_getElem? rs imm k
  obtain ⟨hn, -, hexec⟩ := hload rt i n hk
  exact ⟨w, extend, hn, hexec⟩

theorem exec_store_of_mem {rt rs : Reg} {imm : Imm} {i : Instr} {n : Nat}
    (h : (i, n) ∈ stores rt rs imm) :
    ∃ w, n = w.bytes ∧ ∀ s, exec i s = storeFrom w (s.ea rs imm) (s.reg rt) s := by
  simp only [stores, List.mem_cons, Prod.mk.injEq, List.not_mem_nil, or_false] at h
  obtain ⟨rfl, rfl⟩ | ⟨rfl, rfl⟩ | ⟨rfl, rfl⟩ := h
  · exact ⟨.byte, rfl, fun _ => rfl⟩
  · exact ⟨.half, rfl, fun _ => rfl⟩
  · exact ⟨.word, rfl, fun _ => rfl⟩

/-! ### Misaligned accesses (R54) -/

theorem loadTo_misaligned {rt : Reg} {w : Width} {a : Word} {extend : Word → Word} {s : State}
    (h : ¬ a.toNat % w.bytes = 0) :
    loadTo rt w a extend s = .fault (.misaligned a w .load) := by
  have haligned : aligned w a = false := Bool.eq_false_iff.mpr (aligned_iff.not.mpr h)
  rw [loadTo, load, checkAligned_of_not haligned, andThen_fault, andThen_fault]

theorem storeFrom_misaligned {w : Width} {a v : Word} {s : State} (h : ¬ a.toNat % w.bytes = 0) :
    storeFrom w a v s = .fault (.misaligned a w .store) := by
  have haligned : aligned w a = false := Bool.eq_false_iff.mpr (aligned_iff.not.mpr h)
  rw [storeFrom, checkAligned_of_not haligned, andThen_fault]

/-- Settles O54. -/
theorem misalignedAccessesStop : Obligations.MisalignedAccessesStop :=
  fun _ _ _ _ =>
    ⟨fun hodd => ⟨loadTo_misaligned hodd, loadTo_misaligned hodd, storeFrom_misaligned hodd⟩,
      fun hodd => ⟨loadTo_misaligned hodd, storeFrom_misaligned hodd⟩⟩

/-! ### The map check (R58) -/

/-- With an absent byte, the check stops at one. -/
theorem checkMap_absent {s : State} {as : List Word} (k : AccessKind)
    (h : ∃ a ∈ as, regionAt s.cfg.memMap a.toNat = none) :
    ∃ a ∈ as, regionAt s.cfg.memMap a.toNat = none ∧ checkMap s k as = .fault (.unmappedAddress a k) := by
  unfold checkMap
  split
  case h_1 a hfind =>
    exact ⟨a, List.mem_of_find?_eq_some hfind, by simpa using List.find?_some hfind, rfl⟩
  case h_2 hfind =>
    obtain ⟨a, ha, habsent⟩ := h
    exact absurd habsent (by simpa using List.find?_eq_none.mp hfind a ha)

/-- Without an absent byte, but with one of a device, the check refuses at one of a device. -/
theorem checkMap_device {s : State} {as : List Word} (k : AccessKind)
    (hpresent : ∀ a ∈ as, regionAt s.cfg.memMap a.toNat ≠ none)
    (h : ∃ a ∈ as, regionAt s.cfg.memMap a.toNat = some .device) :
    ∃ a ∈ as, regionAt s.cfg.memMap a.toNat = some .device ∧
      checkMap s k as = .refused (.deviceAccess a k) := by
  unfold checkMap
  split
  case h_1 a hfind =>
    exact absurd (by simpa using List.find?_some hfind) (hpresent a (List.mem_of_find?_eq_some hfind))
  case h_2 =>
    split
    case h_1 a hfind =>
      exact ⟨a, List.mem_of_find?_eq_some hfind, by simpa using List.find?_some hfind, rfl⟩
    case h_2 hfind =>
      obtain ⟨a, ha, hdevice⟩ := h
      exact absurd hdevice (by simpa using List.find?_eq_none.mp hfind a ha)

/-- The map check of an aligned access, at the addresses counted up from the first one. -/
theorem checkMap_footprint_absent {s : State} {w : Width} {a : Word} (kind : AccessKind)
    (haligned : aligned w a = true)
    (h : ∃ k, k < w.bytes ∧ regionAt s.cfg.memMap (a.toNat + k) = none) :
    ∃ k, k < w.bytes ∧ regionAt s.cfg.memMap (a.toNat + k) = none ∧
      checkMap s kind (footprint w a) = .fault (.unmappedAddress (a + BitVec.ofNat 32 k) kind) := by
  obtain ⟨b, hb, habsent, hcheck⟩ := checkMap_absent kind
    ((exists_footprint (p := fun x => regionAt s.cfg.memMap x = none) haligned).mpr h)
  obtain ⟨k, hk, rfl⟩ := mem_footprint.mp hb
  exact ⟨k, hk, toNat_add_of_aligned haligned hk ▸ habsent, hcheck⟩

theorem checkMap_footprint_device {s : State} {w : Width} {a : Word} (kind : AccessKind)
    (haligned : aligned w a = true)
    (hpresent : ∀ k, k < w.bytes → regionAt s.cfg.memMap (a.toNat + k) ≠ none)
    (h : ∃ k, k < w.bytes ∧ regionAt s.cfg.memMap (a.toNat + k) = some .device) :
    ∃ k, k < w.bytes ∧ regionAt s.cfg.memMap (a.toNat + k) = some .device ∧
      checkMap s kind (footprint w a) = .refused (.deviceAccess (a + BitVec.ofNat 32 k) kind) := by
  obtain ⟨b, hb, hdevice, hcheck⟩ := checkMap_device kind
    ((forall_footprint (p := fun x => regionAt s.cfg.memMap x ≠ none) haligned).mpr hpresent)
    ((exists_footprint (p := fun x => regionAt s.cfg.memMap x = some .device) haligned).mpr h)
  obtain ⟨k, hk, rfl⟩ := mem_footprint.mp hb
  exact ⟨k, hk, toNat_add_of_aligned haligned hk ▸ hdevice, hcheck⟩

/-- An instruction that, its access aligned, stops where the map check stops. -/
def StopsAtMap (i : Instr) (s : State) (kind : AccessKind) (w : Width) (a : Word) : Prop :=
  (∀ f, checkMap s kind (footprint w a) = .fault f → exec i s = .fault f) ∧
  ∀ r, checkMap s kind (footprint w a) = .refused r → exec i s = .refused r

theorem checkAligned_of_aligned {s : State} {k : AccessKind} {w : Width} {a : Word}
    (h : aligned w a = true) : checkAligned s k w a = .next () :=
  checkAligned_eq_next.mpr h

theorem stopsAtMap_load {i : Instr} {s : State} {rt : Reg} {w : Width} {a : Word} {extend : Word → Word}
    (hexec : exec i s = loadTo rt w a extend s) (haligned : aligned w a = true) :
    StopsAtMap i s .load w a := by
  constructor <;> intro x hx <;>
    rw [hexec, loadTo, load, checkAligned_of_aligned haligned, andThen_next, hx] <;> rfl

theorem stopsAtMap_store {i : Instr} {s : State} {w : Width} {a v : Word}
    (hexec : exec i s = storeFrom w a v s) (haligned : aligned w a = true) :
    StopsAtMap i s .store w a := by
  constructor <;> intro x hx <;>
    rw [hexec, storeFrom, checkAligned_of_aligned haligned, andThen_next, hx] <;> rfl

theorem stopsAtMap_of_mem {s : State} {rt rs : Reg} {imm : Imm} {i : Instr} {n : Nat} {kind : AccessKind}
    (h : (kind = .load ∧ (i, n) ∈ loads rt rs imm) ∨ (kind = .store ∧ (i, n) ∈ stores rt rs imm))
    (hmod : (s.ea rs imm).toNat % n = 0) :
    ∃ w, n = w.bytes ∧ aligned w (s.ea rs imm) = true ∧ StopsAtMap i s kind w (s.ea rs imm) := by
  rcases h with ⟨rfl, hmem⟩ | ⟨rfl, hmem⟩
  · obtain ⟨w, extend, rfl, hexec⟩ := exec_load_of_mem hmem
    exact ⟨w, rfl, aligned_iff.mpr hmod, stopsAtMap_load (hexec s) (aligned_iff.mpr hmod)⟩
  · obtain ⟨w, rfl, hexec⟩ := exec_store_of_mem hmem
    exact ⟨w, rfl, aligned_iff.mpr hmod, stopsAtMap_store (hexec s) (aligned_iff.mpr hmod)⟩

/-- Settles O55. -/
theorem accessesOutsideMemoryStop : Obligations.AccessesOutsideMemoryStop := by
  intro s rt rs imm i n kind hmem hmod
  obtain ⟨w, rfl, haligned, hfault, hrefused⟩ := stopsAtMap_of_mem hmem hmod
  refine ⟨fun habsent => ?absent, fun hpresent hdevice => ?device⟩
  case absent =>
    obtain ⟨k, hk, hnone, hcheck⟩ := checkMap_footprint_absent kind haligned habsent
    exact ⟨k, hk, hnone, hfault _ hcheck⟩
  case device =>
    obtain ⟨k, hk, hdev, hcheck⟩ := checkMap_footprint_device kind haligned hpresent hdevice
    exact ⟨k, hk, hdev, hrefused _ hcheck⟩

/-! ### Stores into the program text (R63) -/

theorem checkMap_of_memoryBytes {s : State} {w : Width} {a : Word} (kind : AccessKind)
    (h : ∀ k, k < w.bytes → MemoryByte s (a + BitVec.ofNat 32 k)) :
    checkMap s kind (footprint w a) = .next () :=
  checkMap_eq_next.mpr (forall_mem_footprint (p := MemoryByte s) |>.mpr h)

theorem storeFrom_intoText {s : State} {w : Width} {a v : Word} (haligned : aligned w a = true)
    (hmap : ∀ k, k < w.bytes → MemoryByte s (a + BitVec.ofNat 32 k))
    (htext : ∃ k, k < w.bytes ∧ a.toNat + k ∈ s.cfg.programText) :
    storeFrom w a v s = .fault (.storeIntoProgramText a) := by
  have hany : (footprint w a).any (fun b => decide (b.toNat ∈ s.cfg.programText)) = true := by
    simpa only [List.any_eq_true, decide_eq_true_eq] using
      (exists_footprint (p := (· ∈ s.cfg.programText)) haligned).mpr htext
  rw [storeFrom, checkAligned_of_aligned haligned, andThen_next, checkMap_of_memoryBytes .store hmap,
    andThen_next, checkNotText_eq, if_pos hany, andThen_fault]

/-! ### Unwritten bytes (R34) -/

/-- A byte of ram that nothing has written. -/
def Unwritten (s : State) (x : Nat) : Prop :=
  regionAt s.cfg.memMap x = some .ram ∧ byteAt? s.mem x = none

theorem readByte_unwritten {s : State} {a : Word} (kind : AccessKind) (h : Unwritten s a.toNat) :
    readByte s kind a = .fault (.unwrittenByte a kind) := by
  simp [readByte, h.1, h.2]

/-- A byte that is shared, or holds a value, reads. -/
theorem exists_readByte {s : State} {a : Word} (kind : AccessKind)
    (h : regionAt s.cfg.memMap a.toNat = some .shared ∨ byteAt? s.mem a.toNat ≠ none) :
    ∃ b, readByte s kind a = .next b := by
  by_cases hshared : regionAt s.cfg.memMap a.toNat = some .shared
  · exact ⟨_, readByte_shared hshared⟩
  · obtain ⟨b, hb⟩ := Option.ne_none_iff_exists'.mp (h.resolve_left hshared)
    exact ⟨b, readByte_eq_next.mpr (.inr ⟨hshared, hb⟩)⟩

/-- A read stops where the first byte that does not read stops. -/
theorem readBytes_fault {s : State} {kind : AccessKind} {pre post : List Word} {a : Word} {f : Fault}
    (hpre : ∀ b ∈ pre, ∃ x, readByte s kind b = .next x) (ha : readByte s kind a = .fault f) :
    readBytes s kind (pre ++ a :: post) = .fault f := by
  induction pre with
  | nil => rw [List.nil_append, readBytes, ha, andThen_fault]
  | cons b pre ih =>
    obtain ⟨⟨x, hx⟩, hrest⟩ := List.forall_mem_cons.mp hpre
    rw [List.cons_append, readBytes, hx, andThen_next, ih hrest, andThen_fault]

theorem range_split {k n : Nat} (hk : k < n) : ∃ l, List.range n = List.range k ++ k :: l := by
  obtain ⟨m, rfl⟩ := Nat.exists_eq_add_of_lt hk
  refine ⟨((List.range m).map Nat.succ).map (k + ·), ?_⟩
  rw [Nat.add_assoc, List.range_add, List.range_succ_eq_map]
  rfl

theorem footprint_split {w : Width} {k : Nat} (a : Word) (hk : k < w.bytes) :
    ∃ post, footprint w a =
      ((List.range k).map fun j => a + BitVec.ofNat 32 j) ++ (a + BitVec.ofNat 32 k) :: post := by
  obtain ⟨l, hl⟩ := range_split hk
  refine ⟨l.map fun j => a + BitVec.ofNat 32 j, ?_⟩
  rw [footprint_eq_map, hl, List.map_append, List.map_cons]

/-- An aligned read stops at its first unwritten byte. -/
theorem readBytes_unwritten {s : State} {w : Width} {a : Word} {k : Nat} (kind : AccessKind)
    (haligned : aligned w a = true) (hk : k < w.bytes) (hunwritten : Unwritten s (a.toNat + k))
    (hbefore : ∀ j, j < k → regionAt s.cfg.memMap (a.toNat + j) = some .shared ∨
      byteAt? s.mem (a.toNat + j) ≠ none) :
    readBytes s kind (footprint w a) = .fault (.unwrittenByte (a + BitVec.ofNat 32 k) kind) := by
  obtain ⟨post, hsplit⟩ := footprint_split a hk
  rw [hsplit]
  refine readBytes_fault (fun b hb => ?_) (readByte_unwritten kind ?_)
  · obtain ⟨j, hj, rfl⟩ := List.mem_map.mp hb
    have hjk : j < k := List.mem_range.mp hj
    apply exists_readByte
    rw [toNat_add_of_aligned haligned (hjk.trans hk)]
    exact hbefore j hjk
  · rwa [toNat_add_of_aligned haligned hk]

theorem loadTo_unwritten {s : State} {rt : Reg} {w : Width} {a : Word} {extend : Word → Word} {f : Fault}
    (haligned : aligned w a = true) (hmap : ∀ k, k < w.bytes → MemoryByte s (a + BitVec.ofNat 32 k))
    (hread : readBytes s .load (footprint w a) = .fault f) : loadTo rt w a extend s = .fault f := by
  rw [loadTo, load, checkAligned_of_aligned haligned, andThen_next, checkMap_of_memoryBytes .load hmap,
    andThen_next, readValue, hread, andThen_fault, andThen_fault]

/-- Settles O56. -/
theorem storesIntoTextAndUnwrittenReadsStop : Obligations.StoresIntoTextAndUnwrittenReadsStop := by
  refine ⟨fun s rt rs imm i n hmem hmod hmap htext => ?store,
    fun s rt rs imm i n k hmem hmod hmap hk hram hnone hbefore => ?load⟩
  case store =>
    obtain ⟨w, rfl, hexec⟩ := exec_store_of_mem hmem
    rw [hexec, storeFrom_intoText (aligned_iff.mpr hmod) hmap htext]
  case load =>
    obtain ⟨w, extend, rfl, hexec⟩ := exec_load_of_mem hmem
    have haligned : aligned w (s.ea rs imm) = true := aligned_iff.mpr hmod
    rw [hexec, loadTo_unwritten haligned hmap
      (readBytes_unwritten .load haligned hk ⟨hram, hnone⟩ hbefore)]

end Sys2Proof.Proofs
end

section
/-! PROOFS. The step (42_control_transfer.md R150): which instruction it runs, and where it stops before it
runs one (60_exceptions.md R253; log 13, log 23, log 24, log 28, log 32). A stop of the fetch is a stop of the
step, so each stop is found once, in the fetch. Then the coprocessor 0 moves (45_coprocessor0.md R220 to
R223). -/

namespace Sys2Proof.Proofs

open Sys2Proof.Machine Sys2Proof.Claims

/-! ### The configuration (R252, R284, R285) -/

theorem delaysDefined_iff {c : Config} : c.delaysDefined = true ↔ c.loadDelay = 0 ∧ c.hiloDelay = 0 := by
  simp [Config.delaysDefined]

theorem step_of_delays {s : State} (h : s.cfg.loadDelay ≠ 0 ∨ s.cfg.hiloDelay ≠ 0) :
    step s = .refused .delaysUndefined := by
  have hdelays : ¬ s.cfg.delaysDefined = true := by
    rw [delaysDefined_iff]
    omega
  rw [step, checkConfig, if_neg hdelays, andThen_refused]

/-- The configurations in which the machine steps at all. -/
def Steps (s : State) : Prop :=
  s.cfg.loadDelay = 0 ∧ s.cfg.hiloDelay = 0 ∧ s.cfg.interrupts = .none

theorem step_of_interrupts {s : State} (hload : s.cfg.loadDelay = 0) (hhilo : s.cfg.hiloDelay = 0)
    (hinterrupts : s.cfg.interrupts = .possible) : step s = .refused .interruptsUndefined := by
  rw [step, checkConfig, if_pos (delaysDefined_iff.mpr ⟨hload, hhilo⟩), hinterrupts, andThen_refused]

/-- Where the configuration allows it, a step is the fetch, the decoding, the wait check and the execution,
in this order. -/
theorem step_eq {s : State} (h : Steps s) :
    step s = andThen (fetch s) fun w => andThen (decodeFetched s w) fun i =>
      andThen (checkMfc0Wait s i) fun _ => exec i s.afterFetch := by
  obtain ⟨hload, hhilo, hinterrupts⟩ := h
  rw [step, checkConfig_eq_next (u := ()).mpr ⟨delaysDefined_iff.mpr ⟨hload, hhilo⟩, hinterrupts⟩,
    andThen_next]

theorem step_of_fetch_fault {s : State} {f : Fault} (h : Steps s) (hfetch : fetch s = .fault f) :
    step s = .fault f := by
  rw [step_eq h, hfetch, andThen_fault]

theorem step_of_fetch_refused {s : State} {r : Refusal} (h : Steps s) (hfetch : fetch s = .refused r) :
    step s = .refused r := by
  rw [step_eq h, hfetch, andThen_refused]

/-! ### The fetch (R55, R58, R63) -/

theorem fetch_misaligned {s : State} (h : s.pc.toNat % 4 ≠ 0) :
    fetch s = .fault (.misalignedTarget s.pc) := by
  have haligned : ¬ aligned .word s.pc = true := aligned_iff.not.mpr h
  rw [fetch, if_neg haligned]

theorem fetch_eq {s : State} (h : aligned .word s.pc = true) :
    fetch s = andThen (checkMap s .fetch (footprint .word s.pc)) fun _ =>
      andThen (readValue s .fetch .word s.pc) fun v => andThen (checkInText s) fun _ => .next v := by
  rw [fetch, if_pos h]

theorem fetch_unwritten {s : State} {f : Fault} (haligned : aligned .word s.pc = true)
    (hmap : ∀ k, k < 4 → MemoryByte s (s.pc + BitVec.ofNat 32 k))
    (hread : readBytes s .fetch (footprint .word s.pc) = .fault f) : fetch s = .fault f := by
  rw [fetch_eq haligned, checkMap_of_memoryBytes (w := .word) .fetch hmap, andThen_next, readValue, hread,
    andThen_fault, andThen_fault]

/-- With a byte outside the text, the text check refuses at one. -/
theorem checkInText_outside {s : State} (haligned : aligned .word s.pc = true)
    (h : ∃ k, k < 4 ∧ s.pc.toNat + k ∉ s.cfg.programText) :
    ∃ k, k < 4 ∧ s.pc.toNat + k ∉ s.cfg.programText ∧
      checkInText s = .refused (.fetchOutsideProgramText (s.pc + BitVec.ofNat 32 k)) := by
  unfold checkInText
  split
  case h_1 b hfind =>
    obtain ⟨k, hk, rfl⟩ := mem_footprint.mp (List.mem_of_find?_eq_some hfind)
    refine ⟨k, hk, ?_, rfl⟩
    rw [← toNat_add_of_aligned haligned hk]
    simpa using List.find?_some hfind
  case h_2 hfind =>
    obtain ⟨b, hb, hout⟩ :=
      (exists_footprint (w := .word) (p := (· ∉ s.cfg.programText)) haligned).mpr h
    exact absurd hout (by simpa using List.find?_eq_none.mp hfind b hb)

/-- The readable bytes at an aligned pc, as a list. -/
theorem exists_readsAs_word {s : State} (h : ∀ k, k < 4 → ∃ b, ReadsAs s (s.pc + BitVec.ofNat 32 k) b) :
    ∃ bs, List.Forall₂ (ReadsAs s) (footprint .word s.pc) bs := by
  obtain ⟨b0, h0⟩ := h 0 (by decide)
  obtain ⟨b1, h1⟩ := h 1 (by decide)
  obtain ⟨b2, h2⟩ := h 2 (by decide)
  obtain ⟨b3, h3⟩ := h 3 (by decide)
  rw [BitVec.add_zero] at h0
  exact ⟨[b0, b1, b2, b3], forall₂_word h0 h1 h2 h3⟩

theorem fetch_of_readsAs {s : State} {bs : List Byte} (haligned : aligned .word s.pc = true)
    (hbytes : List.Forall₂ (ReadsAs s) (footprint .word s.pc) bs) :
    fetch s = andThen (checkInText s) fun _ => .next (joinBytes s.cfg.byteOrder bs) := by
  rw [fetch_eq haligned, checkMap_eq_next (u := ()).mpr (memoryByte_of_forall₂ hbytes), andThen_next,
    readValue_of_readsAs .fetch hbytes, andThen_next]

/-! ### What a step runs -/

/-- A fetched word that decodes to an instruction that uses no waiting register is executed. -/
theorem step_of_fetch {s : State} {w : Word} {i : Instr} (h : Steps s) (hfetch : fetch s = .next w)
    (hdecode : decodeWord w = .ok i) (hwait : ∀ r ∈ sources i, waitOf s.mfc0Wait r = 0) :
    step s = exec i s.afterFetch := by
  rw [step_eq h, hfetch, andThen_next, decodeFetched_eq_next.mpr hdecode, andThen_next,
    checkMfc0Wait_eq_next (u := ()).mpr hwait, andThen_next]

theorem afterFetch_eq (s : State) :
    s.afterFetch = { s with draws := drawsAfter s s.pc 4, mfc0Wait := shorterWaits s.mfc0Wait } := by
  have hdraws : drawsAfter s s.pc 4 = (s.afterRead .word s.pc).draws := drawsAfter_eq s .word s.pc
  rw [hdraws]
  rfl

/-- Settles O7. -/
theorem stepRunsTheDecodedInstruction : Obligations.StepRunsTheDecodedInstruction := by
  intro s b0 b1 b2 b3 i hload hhilo hinterrupts hmod h0 h1 h2 h3 htext hdecode hwait
  have haligned : aligned .word s.pc = true := aligned_iff.mpr hmod
  have hintext : checkInText s = .next () :=
    checkInText_eq_next.mpr ((forall_footprint (p := (· ∈ s.cfg.programText)) haligned).mpr htext)
  have hfetch : fetch s = .next (wordOf s.cfg.byteOrder b0 b1 b2 b3) := by
    rw [fetch_of_readsAs haligned (forall₂_word h0 h1 h2 h3), hintext, andThen_next, joinBytes_word]
  refine ⟨?_, waitOf_shorterWaits s.mfc0Wait⟩
  rw [step_of_fetch ⟨hload, hhilo, hinterrupts⟩ hfetch hdecode hwait, afterFetch_eq]

/-! ### Words of no row, and waits -/

/-- Every instruction belongs to a row of the table: its operands take no part in its pattern, so the table
evaluates at each constructor. -/
theorem exists_row (i : Instr) : ∃ r ∈ Instr.rows, r.pattern = i.pattern := by
  cases i <;> exact of_decide_eq_true rfl

theorem step_of_unlisted {s : State} {w : Word} (h : Steps s) (hfetch : fetch s = .next w)
    (hrows : ∀ r ∈ Instr.rows, ¬ r.pattern.matches w) :
    ∃ e, step s = .fault (.unlistedEncoding w s.pc e) := by
  cases hdecode : decodeWord w with
  | ok i =>
    obtain ⟨r, hr, hpattern⟩ := exists_row i
    exact absurd (hpattern ▸ decodeWord_matches hdecode) (hrows r hr)
  | error e =>
    refine ⟨e, ?_⟩
    rw [step_eq h, hfetch, andThen_next, decodeFetched, hdecode]
    cases s.cfg.unlistedEncoding
    rfl

theorem checkMfc0Wait_waiting {s : State} {i : Instr} (h : ∃ r ∈ sources i, waitOf s.mfc0Wait r ≠ 0) :
    ∃ r ∈ sources i, waitOf s.mfc0Wait r ≠ 0 ∧ checkMfc0Wait s i = .fault (.mfc0Hazard r s.pc) := by
  unfold checkMfc0Wait
  split
  case h_1 r hfind =>
    exact ⟨r, List.mem_of_find?_eq_some hfind, by simpa using List.find?_some hfind, rfl⟩
  case h_2 hfind =>
    obtain ⟨r, hr, hwait⟩ := h
    exact absurd hwait (by simpa using List.find?_eq_none.mp hfind r hr)

theorem step_of_waiting {s : State} {w : Word} {i : Instr} (h : Steps s) (hfetch : fetch s = .next w)
    (hdecode : decodeWord w = .ok i) (hwait : ∃ r ∈ sources i, waitOf s.mfc0Wait r ≠ 0) :
    ∃ r ∈ sources i, waitOf s.mfc0Wait r ≠ 0 ∧ step s = .fault (.mfc0Hazard r s.pc) := by
  obtain ⟨r, hr, hpositive, hcheck⟩ := checkMfc0Wait_waiting hwait
  refine ⟨r, hr, hpositive, ?_⟩
  rw [step_eq h, hfetch, andThen_next, decodeFetched_eq_next.mpr hdecode, andThen_next, hcheck,
    andThen_fault]

/-! ### Where the step stops -/

theorem step_of_absent {s : State} (h : Steps s) (haligned : aligned .word s.pc = true)
    (habsent : ∃ k, k < 4 ∧ regionAt s.cfg.memMap (s.pc.toNat + k) = none) :
    ∃ k, k < 4 ∧ regionAt s.cfg.memMap (s.pc.toNat + k) = none ∧
      step s = .fault (.unmappedAddress (s.pc + BitVec.ofNat 32 k) .fetch) := by
  obtain ⟨k, hk, hnone, hcheck⟩ := checkMap_footprint_absent .fetch haligned habsent
  refine ⟨k, hk, hnone, step_of_fetch_fault h ?_⟩
  rw [fetch_eq haligned, hcheck, andThen_fault]

theorem step_of_device {s : State} (h : Steps s) (haligned : aligned .word s.pc = true)
    (hpresent : ∀ k, k < 4 → regionAt s.cfg.memMap (s.pc.toNat + k) ≠ none)
    (hdevice : ∃ k, k < 4 ∧ regionAt s.cfg.memMap (s.pc.toNat + k) = some .device) :
    ∃ k, k < 4 ∧ regionAt s.cfg.memMap (s.pc.toNat + k) = some .device ∧
      step s = .refused (.deviceAccess (s.pc + BitVec.ofNat 32 k) .fetch) := by
  obtain ⟨k, hk, hdev, hcheck⟩ := checkMap_footprint_device .fetch haligned hpresent hdevice
  refine ⟨k, hk, hdev, step_of_fetch_refused h ?_⟩
  rw [fetch_eq haligned, hcheck, andThen_refused]

/-- Of the unwritten bytes the fetch meets the first. -/
theorem step_of_unwritten {s : State} (h : Steps s) (haligned : aligned .word s.pc = true)
    (hmap : ∀ k, k < 4 → MemoryByte s (s.pc + BitVec.ofNat 32 k))
    (hunwritten : ∃ k, k < 4 ∧ Unwritten s (s.pc.toNat + k)) :
    ∃ k, k < 4 ∧ Unwritten s (s.pc.toNat + k) ∧
      step s = .fault (.unwrittenByte (s.pc + BitVec.ofNat 32 k) .fetch) := by
  classical
  obtain ⟨hk, hfirst⟩ := Nat.find_spec hunwritten
  refine ⟨Nat.find hunwritten, hk, hfirst, step_of_fetch_fault h (fetch_unwritten haligned hmap
    (readBytes_unwritten .fetch haligned hk hfirst fun j hj => ?_))⟩
  have hj4 : j < Width.word.bytes := hj.trans hk
  have hread := Nat.find_min hunwritten hj
  have hmem := hmap j hj4
  rw [MemoryByte, toNat_add_of_aligned haligned hj4] at hmem
  refine hmem.symm.imp_right fun hram hnone => hread ⟨hj4, hram, hnone⟩

theorem step_of_outsideText {s : State} (h : Steps s) (haligned : aligned .word s.pc = true)
    (hreads : ∀ k, k < 4 → ∃ b, ReadsAs s (s.pc + BitVec.ofNat 32 k) b)
    (hout : ∃ k, k < 4 ∧ s.pc.toNat + k ∉ s.cfg.programText) :
    ∃ k, k < 4 ∧ s.pc.toNat + k ∉ s.cfg.programText ∧
      step s = .refused (.fetchOutsideProgramText (s.pc + BitVec.ofNat 32 k)) := by
  obtain ⟨bs, hbytes⟩ := exists_readsAs_word hreads
  obtain ⟨k, hk, hnot, hcheck⟩ := checkInText_outside haligned hout
  refine ⟨k, hk, hnot, step_of_fetch_refused h ?_⟩
  rw [fetch_of_readsAs haligned hbytes, hcheck, andThen_refused]

/-- Settles O8: each clause is the stop of one check, met with the checks before it passed. -/
theorem stepStopsBeforeExecuting : Obligations.StepStopsBeforeExecuting := by
  intro s
  refine ⟨step_of_delays, fun hload hhilo => ⟨step_of_interrupts hload hhilo, fun hinterrupts => ?_⟩⟩
  have h : Steps s := ⟨hload, hhilo, hinterrupts⟩
  have haligned (hmod : s.pc.toNat % 4 = 0) : aligned .word s.pc = true := aligned_iff.mpr hmod
  refine ⟨fun hmod => step_of_fetch_fault h (fetch_misaligned hmod),
    fun hmod => step_of_absent h (haligned hmod), fun hmod => step_of_device h (haligned hmod),
    fun hmod hmap hunwritten => ?unwritten, fun hmod => step_of_outsideText h (haligned hmod),
    fun w => step_of_unlisted h, fun w i => step_of_waiting h⟩
  case unwritten =>
    obtain ⟨k, hk, ⟨hram, hnone⟩, hstep⟩ := step_of_unwritten h (haligned hmod) hmap hunwritten
    exact ⟨k, hk, hram, hnone, hstep⟩

/-! ### Coprocessor 0 (R220 to R223) -/

/-- Settles O57. -/
theorem opaqueCoprocessor0Stops : Obligations.OpaqueCoprocessor0Stops := by
  intro s rt rd hopaque
  constructor
  · show execMfc0 rt rd s = _
    rw [execMfc0, hopaque]
    rfl
  · show execMtc0 rt rd s = _
    rw [execMtc0, hopaque]
    rfl

/-- Settles O58. -/
theorem suppliedCoprocessor0Moves : Obligations.SuppliedCoprocessor0Moves := by
  intro s rt rd hsupplied
  refine ⟨decodeWord_mfc0 rt rd, ⟨_, exec_mfc0_eq_next.mpr ⟨hsupplied, rfl⟩, fun q => ?registers,
    fun q => ?waits, rfl⟩, decodeWord_mtc0 rt rd, exec_mtc0_eq_next.mpr ⟨hsupplied, rfl⟩⟩
  case registers => exact reg_setReg _ rt q _
  case waits => exact waitOf_startMfc0Wait (s.accessCp0 _) rt q

end Sys2Proof.Proofs
end
